-- ==== Sys2Proof/Word.lean ====
section
/-! DEFINITION. The two data widths of the CORE block: the byte (ACC, IR, a memory cell) and the 16-bit word
(MAR, PC, an address, a 16-bit datum). spec/00_scope.md R5. Everything computed from them (widening, byte order,
address arithmetic) stands in Machine/Ops.lean. -/

namespace Sys2Proof

/-- An 8-bit value (R5: byte size 8 bits). -/
abbrev Byte := BitVec 8

/-- A 16-bit value (R5: address width 16 bits; MAR and PC width 16 bits). -/
abbrev Word := BitVec 16

end Sys2Proof
end

