-- ==== Sys2Proof/Config.lean ====
section
/-! DEFINITION. The implementation parameters of spec/00_scope.md R6 that have more than one named value. The values
this model runs with are `Machine.config` in Machine/Ops.lean (the spec's defaults). The other parameters of R6 stand
elsewhere: MATHFUNC_CODES and TARGET_CODES are the code tables of Decode.lean (the spec names no alternative), and
STEP_LIMIT is none inside the core (Machine/Run.lean takes its fuel from outside, R111). The spec leaves no result
undefined (93_implementation_defined.md U13, U14), so there is no free value. -/

namespace Sys2Proof

/-- `SUB_ORDER` (R6, R139; decision D3): which operand SUB subtracts from which. -/
inductive SubOrder where
  | srcMinusDst
  | dstMinusSrc
  deriving DecidableEq, Repr

/-- `WIDEN` (R6, R126; decision D4): how an 8-bit operand of a Mathematical instruction enters the alu. -/
inductive Widen where
  | zero
  | sign
  deriving DecidableEq, Repr

/-- `ADDR_WRAP` (R6, R27, R49; decision D5): what becomes of a cycle that takes the successor of address 0xFFFF. -/
inductive AddrWrap where
  | mod65536
  | refuse
  deriving DecidableEq, Repr

/-- The parameters a machine is built with; fixed for the machine, never changed by a step. -/
structure Config where
  subOrder : SubOrder
  widen    : Widen
  addrWrap : AddrWrap
  deriving DecidableEq, Repr

end Sys2Proof
end

