-- ==== Sys2Proof/Syntax.lean ====
section
/-! DEFINITION. The CORE instruction set as syntax: the field enumerations of spec/30_encoding.md and one constructor
of `Instr` for each of the 29 rows of spec/opcode_table.json. An `Instr` is what the spec's decoder returns for one
opcode byte (R80): the operand bytes are not part of it, they are fetched from the instruction stream while the
instruction executes (R70, R104). `Coded` is an instruction together with the operand bytes that follow its opcode. -/

namespace Sys2Proof

/-- MathFunction (R73). -/
inductive MathFunc where
  | and | or | xor | add | sub | inc | dec | not
  deriving DecidableEq, Repr

/-- Target (R74): where a Mathematical operand comes from and where a result goes.
`indirect` is written `[MAR]`, `memory` is written `[a16]`. -/
inductive Target where
  | indirect | acc | mar | memory
  deriving DecidableEq, Repr

/-- Register of a Load or Store (R76). -/
inductive Reg where
  | acc | mar
  deriving DecidableEq, Repr

/-- MemoryMethod of a Load or Store (R77). -/
inductive Method where
  | address | constant | indirect
  deriving DecidableEq, Repr

/-- BranchKind (R79). -/
inductive BranchKind where
  | bra | brz | bne | blt | ble | bgt | bge
  deriving DecidableEq, Repr

/-- One constructor per row of spec/opcode_table.json. The Mathematical rows carry their two Targets, src first
as the spec writes them (R92). -/
inductive Instr where
  | and (src dst : Target)
  | or (src dst : Target)
  | xor (src dst : Target)
  | add (src dst : Target)
  | sub (src dst : Target)
  | inc (src dst : Target)
  | dec (src dst : Target)
  | not (src dst : Target)
  /-- `STORE ACC, [a16]`, opcode 0x00. -/
  | storeAccAddr
  /-- `STORE.C ACC, [a16]`, opcode 0x01: Store with method Constant. -/
  | storeCAccAddr
  /-- `STORE ACC, [MAR]`, opcode 0x02. -/
  | storeAccInd
  /-- `STORE MAR, [a16]`, opcode 0x04. -/
  | storeMarAddr
  /-- `STORE.C MAR, [a16]`, opcode 0x05: Store with method Constant. -/
  | storeCMarAddr
  /-- `STORE MAR, [MAR]`, opcode 0x06. -/
  | storeMarInd
  /-- `LOAD ACC, [a16]`, opcode 0x08. -/
  | loadAccAddr
  /-- `LOAD ACC, #i8`, opcode 0x09. -/
  | loadAccImm
  /-- `LOAD ACC, [MAR]`, opcode 0x0A. -/
  | loadAccInd
  /-- `LOAD MAR, [a16]`, opcode 0x0C. -/
  | loadMarAddr
  /-- `LOAD MAR, #i16`, opcode 0x0D. -/
  | loadMarImm
  /-- `LOAD MAR, [MAR]`, opcode 0x0E. -/
  | loadMarInd
  | bra
  | brz
  | bne
  | blt
  | ble
  | bgt
  | bge
  | nop
  | hault
  deriving DecidableEq, Repr

/-- An instruction as it stands in the instruction stream: the decoded opcode and the operand bytes after it, in
stream order (R70, R84). -/
structure Coded where
  instr    : Instr
  operands : List Byte
  deriving DecidableEq, Repr

end Sys2Proof
end

