-- ==== Sys2Proof/Decode.lean ====
section
/-! DEFINITION. The instruction decoder (spec/30_encoding.md R70 to R91), total on every byte and on every list of
bytes, and after it the encoder, written from the same field tables. -/

namespace Sys2Proof

/-- The decoder's answer for one opcode byte (R80): an instruction, or `Illegal(b)` with the offending byte. -/
inductive DecodeResult where
  | ok (i : Instr)
  | illegal (b : Byte)
  deriving DecidableEq, Repr

/-- The answer for a list of stream bytes: an instruction with its operand bytes and what follows it, or the reason
there is none. -/
inductive StreamResult where
  | ok (c : Coded) (rest : List Byte)
  | illegal (b : Byte)
  /-- the list ends inside the operand bytes of `i` -/
  | truncated (i : Instr)
  /-- there is no opcode byte -/
  | empty
  deriving DecidableEq, Repr

/-! ### Field codes -/

/-- `MATHFUNC_CODES`, R73: listing order (UNVERIFIED: the spec's own decision D1, log entry 1; unsafe). -/
def mathFuncOfCode (c : BitVec 3) : MathFunc :=
  match c.toNat with
  | 0 => .and
  | 1 => .or
  | 2 => .xor
  | 3 => .add
  | 4 => .sub
  | 5 => .inc
  | 6 => .dec
  | _ => .not

/-- `TARGET_CODES`, R74: listing order (UNVERIFIED: the spec's own decision D2, log entry 2; unsafe). -/
def targetOfCode (c : BitVec 2) : Target :=
  match c.toNat with
  | 0 => .indirect
  | 1 => .acc
  | 2 => .mar
  | _ => .memory

/-- Register codes, R76: 0 = Acc, 1 = Mar. -/
def regOfCode (c : BitVec 1) : Reg :=
  match c.toNat with
  | 0 => .acc
  | _ => .mar

/-- MemoryMethod codes, R77; code 3 is undefined and no method. -/
def methodOfCode (c : BitVec 2) : Option Method :=
  match c.toNat with
  | 0 => some .address
  | 1 => some .constant
  | 2 => some .indirect
  | _ => none

/-- BranchKind codes, R79; code 7 is undefined and no kind. -/
def branchOfCode (c : BitVec 3) : Option BranchKind :=
  match c.toNat with
  | 0 => some .bra
  | 1 => some .brz
  | 2 => some .bne
  | 3 => some .blt
  | 4 => some .ble
  | 5 => some .bgt
  | 6 => some .bge
  | _ => none

/-! ### From the spec's instruction variants to the rows of the opcode table -/

/-- `Mathematical{func, src, dst}`. -/
def mathInstr (f : MathFunc) (src dst : Target) : Instr :=
  match f with
  | .and => .and src dst
  | .or  => .or src dst
  | .xor => .xor src dst
  | .add => .add src dst
  | .sub => .sub src dst
  | .inc => .inc src dst
  | .dec => .dec src dst
  | .not => .not src dst

/-- `Load{dst, src}`: destination register, method. -/
def loadInstr (r : Reg) (m : Method) : Instr :=
  match r, m with
  | .acc, .address  => .loadAccAddr
  | .acc, .constant => .loadAccImm
  | .acc, .indirect => .loadAccInd
  | .mar, .address  => .loadMarAddr
  | .mar, .constant => .loadMarImm
  | .mar, .indirect => .loadMarInd

/-- `Store{src, dst}`: source register, method. -/
def storeInstr (r : Reg) (m : Method) : Instr :=
  match r, m with
  | .acc, .address  => .storeAccAddr
  | .acc, .constant => .storeCAccAddr
  | .acc, .indirect => .storeAccInd
  | .mar, .address  => .storeMarAddr
  | .mar, .constant => .storeCMarAddr
  | .mar, .indirect => .storeMarInd

/-- `Branch(kind)`. -/
def branchInstr (k : BranchKind) : Instr :=
  match k with
  | .bra => .bra
  | .brz => .brz
  | .bne => .bne
  | .blt => .blt
  | .ble => .ble
  | .bgt => .bgt
  | .bge => .bge

/-! ### The decoder -/

/-- `b[lo + len - 1 : lo]` (00_scope.md section 5.1). -/
def field (b : Byte) (lo len : Nat) : BitVec len := b.extractLsb' lo len

/-- `Decode(b)`, R80, class by class in the order of the spec's pseudocode. Its only input is the opcode byte
(R9, R81, R110). -/
def decodeOpcode (b : Byte) : DecodeResult :=
  if field b 7 1 = 1 then
    .ok (mathInstr (mathFuncOfCode (field b 4 3)) (targetOfCode (field b 0 2)) (targetOfCode (field b 2 2)))
  else if field b 4 4 = 0 then
    match methodOfCode (field b 0 2) with
    | none => .illegal b
    | some m =>
      if field b 3 1 = 1 then .ok (loadInstr (regOfCode (field b 2 1)) m)
      else .ok (storeInstr (regOfCode (field b 2 1)) m)
  else if field b 3 5 = 2 then
    match branchOfCode (field b 0 3) with
    | none => .illegal b
    | some k => .ok (branchInstr k)
  else if b = 0x18 then .ok .nop
  else if b = 0x1C then .ok .hault
  else .illegal b

/-- Stream bytes a Mathematical operand takes: 2 for Memory, none otherwise (R74). -/
def targetBytes (t : Target) : Nat :=
  match t with
  | .indirect => 0
  | .acc => 0
  | .mar => 0
  | .memory => 2

/-- How many operand bytes follow the opcode (R84). -/
def operandBytes (i : Instr) : Nat :=
  match i with
  | .and src dst => targetBytes src + targetBytes dst
  | .or src dst => targetBytes src + targetBytes dst
  | .xor src dst => targetBytes src + targetBytes dst
  | .add src dst => targetBytes src + targetBytes dst
  | .sub src dst => targetBytes src + targetBytes dst
  | .inc src dst => targetBytes src + targetBytes dst
  | .dec src dst => targetBytes src + targetBytes dst
  | .not src dst => targetBytes src + targetBytes dst
  | .storeAccAddr => 2
  | .storeCAccAddr => 2
  | .storeAccInd => 0
  | .storeMarAddr => 2
  | .storeCMarAddr => 2
  | .storeMarInd => 0
  | .loadAccAddr => 2
  | .loadAccImm => 1
  | .loadAccInd => 0
  | .loadMarAddr => 2
  | .loadMarImm => 2
  | .loadMarInd => 0
  | .bra => 2
  | .brz => 2
  | .bne => 2
  | .blt => 2
  | .ble => 2
  | .bgt => 2
  | .bge => 2
  | .nop => 0
  | .hault => 0

/-- Length in bytes, opcode included: 1, 2, 3 or 5 (R84). -/
def instrLength (i : Instr) : Nat := 1 + operandBytes i

/-- How many stream bytes a cycle consumes whose opcode byte is `b`; an illegal byte consumes itself only (R84). -/
def bytesConsumed (b : Byte) : Nat :=
  match decodeOpcode b with
  | .ok i => instrLength i
  | .illegal _ => 1

/-- One instruction off the front of a list of stream bytes. -/
def decodeStream (bytes : List Byte) : StreamResult :=
  match bytes with
  | [] => .empty
  | b :: rest =>
    match decodeOpcode b with
    | .illegal b' => .illegal b'
    | .ok i =>
      if rest.length < operandBytes i then .truncated i
      else .ok ⟨i, rest.take (operandBytes i)⟩ (rest.drop (operandBytes i))

/-! ### The encoder -/

/-- R73. -/
def codeOfMathFunc (f : MathFunc) : Nat :=
  match f with
  | .and => 0
  | .or  => 1
  | .xor => 2
  | .add => 3
  | .sub => 4
  | .inc => 5
  | .dec => 6
  | .not => 7

/-- R74. -/
def codeOfTarget (t : Target) : Nat :=
  match t with
  | .indirect => 0
  | .acc => 1
  | .mar => 2
  | .memory => 3

/-- R76. -/
def codeOfReg (r : Reg) : Nat :=
  match r with
  | .acc => 0
  | .mar => 1

/-- R77. -/
def codeOfMethod (m : Method) : Nat :=
  match m with
  | .address => 0
  | .constant => 1
  | .indirect => 2

/-- R79. -/
def codeOfBranch (k : BranchKind) : Nat :=
  match k with
  | .bra => 0
  | .brz => 1
  | .bne => 2
  | .blt => 3
  | .ble => 4
  | .bgt => 5
  | .bge => 6

/-- R72: `0x80 + func * 16 + dst * 4 + src`. -/
def mathOpcode (f : MathFunc) (src dst : Target) : Byte :=
  BitVec.ofNat 8 (0x80 + codeOfMathFunc f * 16 + codeOfTarget dst * 4 + codeOfTarget src)

/-- R75: `dir * 8 + reg * 4 + method` with `dir` = 1. -/
def loadOpcode (r : Reg) (m : Method) : Byte := BitVec.ofNat 8 (1 * 8 + codeOfReg r * 4 + codeOfMethod m)

/-- R75: `dir * 8 + reg * 4 + method` with `dir` = 0. -/
def storeOpcode (r : Reg) (m : Method) : Byte := BitVec.ofNat 8 (0 * 8 + codeOfReg r * 4 + codeOfMethod m)

/-- R78: `0x10 + kind`. -/
def branchOpcode (k : BranchKind) : Byte := BitVec.ofNat 8 (0x10 + codeOfBranch k)

/-- The opcode byte of an instruction. -/
def opcodeOf (i : Instr) : Byte :=
  match i with
  | .and src dst => mathOpcode .and src dst
  | .or src dst => mathOpcode .or src dst
  | .xor src dst => mathOpcode .xor src dst
  | .add src dst => mathOpcode .add src dst
  | .sub src dst => mathOpcode .sub src dst
  | .inc src dst => mathOpcode .inc src dst
  | .dec src dst => mathOpcode .dec src dst
  | .not src dst => mathOpcode .not src dst
  | .storeAccAddr => storeOpcode .acc .address
  | .storeCAccAddr => storeOpcode .acc .constant
  | .storeAccInd => storeOpcode .acc .indirect
  | .storeMarAddr => storeOpcode .mar .address
  | .storeCMarAddr => storeOpcode .mar .constant
  | .storeMarInd => storeOpcode .mar .indirect
  | .loadAccAddr => loadOpcode .acc .address
  | .loadAccImm => loadOpcode .acc .constant
  | .loadAccInd => loadOpcode .acc .indirect
  | .loadMarAddr => loadOpcode .mar .address
  | .loadMarImm => loadOpcode .mar .constant
  | .loadMarInd => loadOpcode .mar .indirect
  | .bra => branchOpcode .bra
  | .brz => branchOpcode .brz
  | .bne => branchOpcode .bne
  | .blt => branchOpcode .blt
  | .ble => branchOpcode .ble
  | .bgt => branchOpcode .bgt
  | .bge => branchOpcode .bge
  | .nop => 0x18
  | .hault => 0x1C

/-- The bytes of an instruction in stream order: opcode, then operand bytes (R70). -/
def encode (c : Coded) : List Byte := opcodeOf c.instr :: c.operands

/-! ### The host's view of a table row -/

/-- The longest instruction is 5 bytes (R84). -/
def maxInstrBytes : Nat := 5

/-- The bytes of an instruction whose bits are `w`, numbered as spec/opcode_table.json numbers them (byte `k` is bits
`8k+7..8k`); every bit at or above `nbits` is 0. -/
def tableBytes (nbits w : Nat) : List Byte :=
  (List.range maxInstrBytes).map fun k => BitVec.ofNat 8 ((w % 2 ^ nbits) / 256 ^ k)

/-- The instruction the decoder reads from the word `w` of a table row of `nbits` bits; none where it refuses. -/
def decodeTableWord (nbits w : Nat) : Option Instr :=
  match decodeStream (tableBytes nbits w) with
  | .ok c _ => some c.instr
  | .illegal _ => none
  | .truncated _ => none
  | .empty => none

end Sys2Proof
end

