-- ==== Sys2Proof/Machine/State.lean ====
section
/-! DEFINITION. The whole state of the CORE block as plain data (spec/10_state.md: four registers, the run state, the
fault record and the 65536-byte memory; R36: there is nothing else), the reasons a step can stop, and the state after
reset. -/

namespace Sys2Proof.Machine

/-- The memory array of R34 as a list of (address, byte) cells in canonical form (`Memory.wf`, Machine/Memory.lean):
an address that is not listed holds `unlistedByte`. -/
abbrev Memory := List Host.Cell

/-- `runstate`, R31. The spec gives it no bit encoding (D12). -/
inductive RunState where
  | running | halted | faulted
  deriving DecidableEq, Repr

/-- The payload of the fault record, R32: the offending opcode byte and the PC after it was consumed. -/
structure FaultRecord where
  opcode : Byte
  pc     : Word
  deriving DecidableEq, Repr

/-- Every piece of state the spec gives the machine (spec/10_state.md section 1). -/
structure State where
  /-- R20: the accumulator. -/
  acc      : Byte
  /-- R21: the Memory Address Register. -/
  mar      : Word
  /-- R22: the Instruction Register, the most recently fetched opcode. -/
  ir       : Byte
  /-- R24: the address of the next byte to fetch. -/
  pc       : Word
  /-- R31. -/
  runstate : RunState
  /-- R32: `none` until an illegal opcode is fetched. -/
  fault    : Option FaultRecord
  /-- R34: 65536 bytes, instructions, operands and data alike. -/
  mem      : Memory
  deriving DecidableEq, Repr

/-- Why the machine stops with a fault. R195: the one cause, IllegalOpcode, is the single constructor. -/
inductive Fault where
  /-- Raised by `step` at a state whose run has ended `Faulted`: what `run` then returns, `Faulted` with opcode and pc
  (R106, R201). The cycle that fetched the illegal byte itself answers a next state (R191). DESIGN CHOICE, log entry 8;
  safe: no cycle runs in `Faulted` (R200). -/
  | illegalOpcode (opcode : Byte) (pc : Word)
  deriving DecidableEq, Repr

/-- Why there is no step (or no construction) at all. -/
inductive Refusal where
  /-- Raised by an arm of `exec` whose instruction has no meaning yet; no arm is left in that state. Safe. -/
  | notModelled (mnemonic : String)
  /-- Raised by `step` at a state whose run has ended `Halted`: no cycle runs there (R31, R187). It is the normal end
  of a run and no fault (R201). DESIGN CHOICE, log entry 9; safe. -/
  | runHalted
  /-- Raised by `step` at a `Faulted` state without a fault record. The spec has no such state and no run reaches one
  (log entry 10). Safe. -/
  | faultedWithoutRecord
  /-- Raised by `construct` for an image longer than 65536 bytes (R213). Safe. -/
  | imageTooLong
  /-- Raised by `step` only under `ADDR_WRAP` = `refuse`, for a cycle that takes the successor of 0xFFFF (R27, R49).
  Never raised with the parameters the model runs with. Safe. -/
  | addressPastTop
  deriving DecidableEq, Repr

/-- The machine right after reset with the empty image (R37, R210, R212): every register zero, execution from address
0, every byte of memory 0x00. The image is the host's (`construct` in Machine/Ops.lean builds the reset state of any
image); log entry 12. -/
def State.reset : State where
  acc      := 0
  mar      := 0
  ir       := 0
  pc       := 0
  runstate := .running
  fault    := none
  mem      := []

end Sys2Proof.Machine
end

