-- ==== Sys2Proof/Machine/Memory.lean ====
section
/-! DEFINITION. The memory array (spec/10_state.md R34, spec/20_memory.md) as a canonical list of cells, and the four
operations of the `memory_interface` sub-block (R12, R40): byte and 16-bit read, byte and 16-bit write. None can fail. -/

namespace Sys2Proof.Machine

/-- What an address that nothing has written holds: 0x00 (R34, R210, R212: zero-filled above the image). -/
def unlistedByte : Byte := 0

/-- 65536 bytes (R5, R34). -/
def memorySize : Nat := 65536

/-- Every cell of `m` lies at an address above `a`. -/
def Memory.above (a : Nat) (m : Memory) : Bool :=
  match m with
  | [] => true
  | c :: rest => a < c.1 && Memory.above a rest

/-- The canonical form: addresses strictly rising, every address in range (R35), and no cell equal to what an unlisted
address reads as. -/
def Memory.wf (m : Memory) : Bool :=
  match m with
  | [] => true
  | c :: rest => c.1 < memorySize && c.2 != unlistedByte && Memory.above c.1 rest && Memory.wf rest

/-- The byte at key `a`. -/
def readCell (m : Memory) (a : Nat) : Byte :=
  match m with
  | [] => unlistedByte
  | c :: rest => if c.1 = a then c.2 else readCell rest a

/-- Drop every cell at key `a`. -/
def eraseCell (m : Memory) (a : Nat) : Memory :=
  match m with
  | [] => []
  | c :: rest => if c.1 = a then eraseCell rest a else c :: eraseCell rest a

/-- Put a cell before the first one at a higher address. -/
def insertCell (m : Memory) (a : Nat) (v : Byte) : Memory :=
  match m with
  | [] => [(a, v)]
  | c :: rest => if a < c.1 then (a, v) :: c :: rest else c :: insertCell rest a v

/-- Set the byte at key `a`, keeping the canonical form. -/
def writeCell (m : Memory) (a : Nat) (v : Byte) : Memory :=
  if v = unlistedByte then eraseCell m a else insertCell (eraseCell m a) a v

/-! ### Address successor and byte order -/

/-- `(a + 1) mod 65536` (R27, R43, R45, R49; UNVERIFIED: the spec's own decision D5, log entry 5; unsafe). -/
def addrSucc (a : Word) : Word := a + 1

/-- `{h, l}` = `h * 256 + l` (00_scope.md section 5.1). -/
def joinBytes (h l : Byte) : Word := h ++ l

/-- `v[15:8]`. -/
def highByte (v : Word) : Byte := v.extractLsb' 8 8

/-- `v[7:0]`, which is also `trunc_8(v)`. -/
def lowByte (v : Word) : Byte := v.extractLsb' 0 8

/-! ### memory_interface -/

/-- `MemRead(addr, 1)`, R42. -/
def readByte (m : Memory) (addr : Word) : Byte := readCell m addr.toNat

/-- `MemRead(addr, 2)`, R43: big-endian, the byte at the lower address is the high byte. -/
def readWord (m : Memory) (addr : Word) : Word := joinBytes (readByte m addr) (readByte m (addrSucc addr))

/-- `MemWrite(addr, 1, v)`, R44. -/
def writeByte (m : Memory) (addr : Word) (v : Byte) : Memory := writeCell m addr.toNat v

/-- `MemWrite(addr, 2, v)`, R45: high byte at `addr`, low byte at its successor (R51). -/
def writeWord (m : Memory) (addr : Word) (v : Word) : Memory :=
  writeByte (writeByte m addr (highByte v)) (addrSucc addr) (lowByte v)

/-- Bytes written one after another from `addr` up, wrapping as `addrSucc` does. -/
def writeBytes (m : Memory) (addr : Word) (bytes : List Byte) : Memory :=
  match bytes with
  | [] => m
  | b :: rest => writeBytes (writeByte m addr b) (addrSucc addr) rest

/-- The memory that holds `bytes` from key `a` up and 0x00 everywhere else (R212). -/
def imageFrom (a : Nat) (bytes : List Byte) : Memory :=
  match bytes with
  | [] => []
  | b :: rest => if b = unlistedByte then imageFrom (a + 1) rest else (a, b) :: imageFrom (a + 1) rest

end Sys2Proof.Machine
end

