-- ==== Sys2Proof/Machine/Ops.lean ====
section
/-! DEFINITION. The named operations every meaning is built from: the register file (spec/00_scope.md R7), the pc mux
(R11), the fetches (spec/40_fetch_cycle.md R101 to R103), the one exception (spec/60_exceptions.md R191), the halt
(R186) and the construction from an image (spec/70_reset_and_hazards.md R210 to R213). There is no return from the
exception to stand beside it: R200, `Faulted` has no outgoing transition. -/

namespace Sys2Proof.Machine

/-- The parameter values this model runs with: the spec's defaults (R6). `subOrder` is D3 (log entry 3), `widen` is D4
(log entry 4), `addrWrap` is D5 (log entry 5); each UNVERIFIED and unsafe. -/
def config : Config where
  subOrder := .srcMinusDst
  widen    := .zero
  addrWrap := .mod65536

/-! ### register_file (R7) and the status state (R31, R32) -/

def State.setAcc (s : State) (v : Byte) : State := { s with acc := v }
def State.setMar (s : State) (v : Word) : State := { s with mar := v }
def State.setIr (s : State) (v : Byte) : State := { s with ir := v }
def State.setPc (s : State) (v : Word) : State := { s with pc := v }
def State.setRunstate (s : State) (v : RunState) : State := { s with runstate := v }
def State.setFault (s : State) (v : Option FaultRecord) : State := { s with fault := v }
def State.setMem (s : State) (v : Memory) : State := { s with mem := v }

/-! ### pc_mux (R11, R107) -/

/-- The two sources of the next PC. -/
inductive PcSource where
  /-- selected on every `FetchByte()` -/
  | increment
  /-- selected at the end of a Branch whose condition holds -/
  | target (t : Word)
  deriving DecidableEq, Repr

/-- The next value of PC. -/
def pcMux (sel : PcSource) (pc : Word) : Word :=
  match sel with
  | .increment => addrSucc pc
  | .target t => t

/-! ### fetch_unit (R8) -/

/-- `FetchByte()`, R101: the byte at PC, and the state with PC advanced by one. -/
def fetchByte (s : State) : Byte × State := (readByte s.mem s.pc, s.setPc (pcMux .increment s.pc))

/-- `FetchWord()`, R102: two `FetchByte()` calls, the first is the high byte. -/
def fetchWord (s : State) : Word × State :=
  let h := fetchByte s
  let l := fetchByte h.2
  (joinBytes h.1 l.1, l.2)

/-- The opcode fetch, R103: `x[IR] <- FetchByte()`, the first action of every cycle. -/
def fetchOpcode (s : State) : State := (fetchByte s).2.setIr (fetchByte s).1

/-! ### Ends of a run -/

/-- `raise IllegalOpcode(op, p)`, R191, R199: the whole of taking the exception. -/
def raiseIllegalOpcode (op : Byte) (p : Word) (s : State) : State :=
  (s.setFault (some { opcode := op, pc := p })).setRunstate .faulted

/-- `halt`, R186. -/
def halt (s : State) : State := s.setRunstate .halted

/-! ### Construction (reset) -/

/-- `Reset(image)`, R210 to R213: the image in the low addresses, 0x00 above it, all registers zero, `Running`. An image
longer than the memory is refused (D18). -/
def construct (image : List Byte) : Host.Outcome State Fault Refusal :=
  if image.length ≤ memorySize then .next (State.reset.setMem (imageFrom 0 image))
  else .refused .imageTooLong

/-- A program placed at PC from outside the machine, in a machine that runs: what `State.withFetchWord` stands for
(log entry 12). -/
def placeInstruction (s : State) (bytes : List Byte) : State :=
  ((s.setMem (writeBytes s.mem s.pc bytes)).setRunstate .running).setFault none

end Sys2Proof.Machine
end

