-- ==== Sys2Proof/Machine/Alu.lean ====
section
/-! DEFINITION. The first function of the alu (spec/00_scope.md R10): the eight MathFunctions on 16-bit operands,
spec/41_mathematical.md R127. It has no state: no carry in, no carry out, no flag (R129, R130). -/

namespace Sys2Proof.Machine

/-- The two readings of SUB (R139, D3). -/
def aluSub (o : SubOrder) (a b : Word) : Word :=
  match o with
  | .srcMinusDst => a - b
  | .dstMinusSrc => b - a

/-- `F(func, a, b)`, R127: `a` from the src operand, `b` from the dst operand; INC, DEC and NOT ignore `b`. -/
def alu (c : Config) (f : MathFunc) (a b : Word) : Word :=
  match f with
  | .and => a &&& b
  | .or  => a ||| b
  | .xor => a ^^^ b
  | .add => a + b
  | .sub => aluSub c.subOrder a b
  | .inc => a + 1
  | .dec => a - 1
  | .not => ~~~a

/-- `F_8`, R128: the same function at 8 bits, with the subtraction order of `c`. No meaning uses it; the width law is
stated with it. -/
def alu8 (c : Config) (f : MathFunc) (a b : Byte) : Byte :=
  match f with
  | .and => a &&& b
  | .or  => a ||| b
  | .xor => a ^^^ b
  | .add => a + b
  | .sub =>
    match c.subOrder with
    | .srcMinusDst => a - b
    | .dstMinusSrc => b - a
  | .inc => a + 1
  | .dec => a - 1
  | .not => ~~~a

/-- How an 8-bit operand becomes the 16-bit value the alu takes (R126, D4). -/
def widenByte (w : Widen) (v : Byte) : Word :=
  match w with
  | .zero => v.setWidth 16
  | .sign => v.signExtend 16

end Sys2Proof.Machine
end

