-- ==== Sys2Proof/Machine/Flags.lean ====
section
/-! DEFINITION. There are no flags and no condition codes (spec/10_state.md R30): what a branch tests is the present
value of ACC. This file holds that test, the second function of the alu (spec/00_scope.md R10). -/

namespace Sys2Proof.Machine

/-- `signed_8(v)`: the two's-complement reading of a byte, -128 to 127 (00_scope.md section 5.1). -/
def signed8 (v : Byte) : Int := if v.toNat < 128 then v.toNat else (v.toNat : Int) - 256

/-- `Taken(kind, acc)`, R172. -/
def taken (k : BranchKind) (acc : Byte) : Bool :=
  match k with
  | .bra => true
  | .brz => decide (signed8 acc = 0)
  | .bne => decide (signed8 acc ≠ 0)
  | .blt => decide (signed8 acc < 0)
  | .ble => decide (signed8 acc ≤ 0)
  | .bgt => decide (signed8 acc > 0)
  | .bge => decide (signed8 acc ≥ 0)

end Sys2Proof.Machine
end

