-- ==== Sys2Proof/Machine/Operands.lean ====
section
/-! DEFINITION. Every operand form: the four Targets of a Mathematical instruction, resolved and written back
(spec/41_mathematical.md R120 to R126), and the three MemoryMethods of Load and Store (spec/42_load.md R150,
spec/43_store.md R160); then the execution scheme each family shares. -/

namespace Sys2Proof.Machine

/-- Where the result of a Mathematical instruction goes: the register its dst names, or the writeback address and width
its dst resolved to (`ByteAt`, `WordAt` of R121, R124). -/
inductive Place where
  | acc
  | mar
  | byteAt (addr : Word)
  | wordAt (addr : Word)
  deriving DecidableEq, Repr

/-- What resolving an operand gives: its 16-bit value, its place, and the state after its stream bytes are consumed. -/
structure Resolved where
  value : Word
  place : Place
  state : State
  deriving DecidableEq, Repr

/-- `Resolve(t)`, R121 to R124. Only Memory consumes stream bytes (90_conflicts.md C2). -/
def resolve (c : Config) (t : Target) (s : State) : Resolved :=
  match t with
  | .indirect => { value := widenByte c.widen (readByte s.mem s.mar), place := .byteAt s.mar, state := s }
  | .acc => { value := widenByte c.widen s.acc, place := .acc, state := s }
  | .mar => { value := s.mar, place := .mar, state := s }
  | .memory =>
    let a := fetchWord s
    { value := readWord a.2.mem a.1, place := .wordAt a.1, state := a.2 }

/-- `WriteDst(dst, wb, r)`, R125: the 16-bit result at the width of the place. -/
def writeDst (p : Place) (r : Word) (s : State) : State :=
  match p with
  | .acc => s.setAcc (lowByte r)
  | .mar => s.setMar r
  | .byteAt addr => s.setMem (writeByte s.mem addr (lowByte r))
  | .wordAt addr => s.setMem (writeWord s.mem addr r)

/-- `ExecMath(func, src, dst)`, R120: src resolved first, dst second, then the alu, then the one write. -/
def mathResult (c : Config) (f : MathFunc) (src dst : Target) (s : State) : State :=
  let a := resolve c src s
  let b := resolve c dst a.state
  writeDst b.place (alu c f a.value b.value) b.state

/-- `ExecMath` with the parameters the model runs with. -/
def execMath (f : MathFunc) (src dst : Target) (s : State) : Host.Outcome State Fault Refusal :=
  .next (mathResult config f src dst s)

/-- A Load from an address, at the width of the register (R150). -/
def loadFrom (r : Reg) (addr : Word) (s : State) : State :=
  match r with
  | .acc => s.setAcc (readByte s.mem addr)
  | .mar => s.setMar (readWord s.mem addr)

/-- The immediate of a Load, at the width of the register (R150, R90). -/
def loadImmediate (r : Reg) (s : State) : State :=
  match r with
  | .acc => (fetchByte s).2.setAcc (fetchByte s).1
  | .mar => (fetchWord s).2.setMar (fetchWord s).1

/-- `ExecLoad(dst, src)`, R150. -/
def execLoad (r : Reg) (m : Method) (s : State) : Host.Outcome State Fault Refusal :=
  match m with
  | .address => .next (loadFrom r (fetchWord s).1 (fetchWord s).2)
  | .constant => .next (loadImmediate r s)
  | .indirect => .next (loadFrom r s.mar s)

/-- The address a Store writes to, and the state after its stream bytes are consumed (R160). Constant is an alias of
Address, for both registers (R168; UNVERIFIED: the document itself doubts it, log entry 7; unsafe). -/
def storeAddress (m : Method) (s : State) : Word × State :=
  match m with
  | .address => fetchWord s
  | .constant => fetchWord s
  | .indirect => (s.mar, s)

/-- The write of a Store, at the width of the register (R160; UNVERIFIED: the spec's own decision D10, log entry 6;
unsafe). -/
def storeTo (r : Reg) (addr : Word) (s : State) : State :=
  match r with
  | .acc => s.setMem (writeByte s.mem addr s.acc)
  | .mar => s.setMem (writeWord s.mem addr s.mar)

/-- `ExecStore(src, dst)`, R160. -/
def execStore (r : Reg) (m : Method) (s : State) : Host.Outcome State Fault Refusal :=
  .next (storeTo r (storeAddress m s).1 (storeAddress m s).2)

/-- `ExecBranch(kind)`, R170: the target is always fetched; a taken branch replaces PC by it (R171). -/
def execBranch (k : BranchKind) (s : State) : Host.Outcome State Fault Refusal :=
  let t := fetchWord s
  if taken k t.2.acc then .next (t.2.setPc (pcMux (.target t.1) t.2.pc)) else .next t.2

end Sys2Proof.Machine
end

