-- ==== Sys2Proof/Machine/AddrWrap.lean ====
section
/-! DEFINITION. The alternative value `refuse` of the parameter ADDR_WRAP (spec/10_state.md R27, spec/20_memory.md R49):
with it, a cycle that would take the successor of address 0xFFFF has no step. With the value the model runs with,
`mod65536`, nothing here stops anything (`wrapRefused_config`, Laws/Step.lean). -/

namespace Sys2Proof.Machine

/-- The address of the 16-bit access a Mathematical operand makes, in the state in which it is resolved (R50). -/
def targetWordAccess (t : Target) (s : State) : List Word :=
  match t with
  | .indirect => []
  | .acc => []
  | .mar => []
  | .memory => [(fetchWord s).1]

/-- The 16-bit data accesses of a Mathematical instruction, src first. -/
def mathWordAccesses (src dst : Target) (s : State) : List Word :=
  targetWordAccess src s ++ targetWordAccess dst (resolve config src s).state

/-- The addresses of the 16-bit data accesses of an instruction, in the state after the opcode fetch (R50). -/
def wordAccesses (i : Instr) (s : State) : List Word :=
  match i with
  | .and src dst => mathWordAccesses src dst s
  | .or src dst => mathWordAccesses src dst s
  | .xor src dst => mathWordAccesses src dst s
  | .add src dst => mathWordAccesses src dst s
  | .sub src dst => mathWordAccesses src dst s
  | .inc src dst => mathWordAccesses src dst s
  | .dec src dst => mathWordAccesses src dst s
  | .not src dst => mathWordAccesses src dst s
  | .storeAccAddr => []
  | .storeCAccAddr => []
  | .storeAccInd => []
  | .storeMarAddr => [(fetchWord s).1]
  | .storeCMarAddr => [(fetchWord s).1]
  | .storeMarInd => [s.mar]
  | .loadAccAddr => []
  | .loadAccImm => []
  | .loadAccInd => []
  | .loadMarAddr => [(fetchWord s).1]
  | .loadMarImm => []
  | .loadMarInd => [s.mar]
  | .bra => []
  | .brz => []
  | .bne => []
  | .blt => []
  | .ble => []
  | .bgt => []
  | .bge => []
  | .nop => []
  | .hault => []

/-- The cycle at `s` increments a PC of 0xFFFF, or makes a 16-bit access at 0xFFFF. -/
def crossesTop (s : State) : Bool :=
  let b := readByte s.mem s.pc
  let dataCrosses :=
    match decodeOpcode b with
    | .illegal _ => false
    | .ok i => (wordAccesses i (fetchOpcode s)).contains 0xFFFF
  decide (memorySize ≤ s.pc.toNat + bytesConsumed b) || dataCrosses

/-- R27, R49: whether the cycle at `s` has no step with the value `w` of ADDR_WRAP. -/
def wrapRefused (w : AddrWrap) (s : State) : Bool :=
  match w with
  | .mod65536 => false
  | .refuse => crossesTop s

end Sys2Proof.Machine
end

