-- ==== Sys2Proof/Machine/Branch.lean ====
section
/-! DEFINITION. The meanings of the seven Branch instructions (spec/44_branch.md section 2). Each runs in the state after the
opcode fetch; the shared scheme is `execBranch` (R170). -/

namespace Sys2Proof.Machine

/-- `BRA a16`, R176. -/
def execBra (s : State) : Host.Outcome State Fault Refusal :=
  execBranch .bra s

/-- `BRZ a16`, R177. -/
def execBrz (s : State) : Host.Outcome State Fault Refusal :=
  execBranch .brz s

/-- `BNE a16`, R178. -/
def execBne (s : State) : Host.Outcome State Fault Refusal :=
  execBranch .bne s

/-- `BLT a16`, R179. -/
def execBlt (s : State) : Host.Outcome State Fault Refusal :=
  execBranch .blt s

/-- `BLE a16`, R180. -/
def execBle (s : State) : Host.Outcome State Fault Refusal :=
  execBranch .ble s

/-- `BGT a16`, R181. -/
def execBgt (s : State) : Host.Outcome State Fault Refusal :=
  execBranch .bgt s

/-- `BGE a16`, R182. -/
def execBge (s : State) : Host.Outcome State Fault Refusal :=
  execBranch .bge s

end Sys2Proof.Machine
end

