-- ==== Sys2Proof/Machine/Load.lean ====
section
/-! DEFINITION. The meanings of the six Load instructions (spec/42_load.md section 2). Each runs in the state after the opcode
fetch; the shared scheme is `execLoad` (R150). -/

namespace Sys2Proof.Machine

/-- `LOAD ACC, [a16]`, R151. -/
def execLoadAccAddr (s : State) : Host.Outcome State Fault Refusal :=
  execLoad .acc .address s

/-- `LOAD ACC, #i8`, R152. -/
def execLoadAccImm (s : State) : Host.Outcome State Fault Refusal :=
  execLoad .acc .constant s

/-- `LOAD ACC, [MAR]`, R153. -/
def execLoadAccInd (s : State) : Host.Outcome State Fault Refusal :=
  execLoad .acc .indirect s

/-- `LOAD MAR, [a16]`, R154. -/
def execLoadMarAddr (s : State) : Host.Outcome State Fault Refusal :=
  execLoad .mar .address s

/-- `LOAD MAR, #i16`, R155. -/
def execLoadMarImm (s : State) : Host.Outcome State Fault Refusal :=
  execLoad .mar .constant s

/-- `LOAD MAR, [MAR]`, R156. -/
def execLoadMarInd (s : State) : Host.Outcome State Fault Refusal :=
  execLoad .mar .indirect s

end Sys2Proof.Machine
end

