-- ==== Sys2Proof/Machine/Mathematical.lean ====
section
/-! DEFINITION. The meanings of the eight Mathematical instructions (spec/41_mathematical.md section 4). Each runs in the state
after the opcode fetch; the shared scheme is `execMath` (R120). -/

namespace Sys2Proof.Machine

/-- AND, R133: `r <- a & b`; `WriteDst(dst, wb, r)`. -/
def execAnd (src dst : Target) (s : State) : Host.Outcome State Fault Refusal :=
  execMath .and src dst s

/-- OR, R136: `r <- a | b`; `WriteDst(dst, wb, r)`. -/
def execOr (src dst : Target) (s : State) : Host.Outcome State Fault Refusal :=
  execMath .or src dst s

/-- XOR, R137: `r <- a ^ b`; `WriteDst(dst, wb, r)`. -/
def execXor (src dst : Target) (s : State) : Host.Outcome State Fault Refusal :=
  execMath .xor src dst s

/-- ADD, R138: `r <- (a + b) mod 65536`; `WriteDst(dst, wb, r)`. -/
def execAdd (src dst : Target) (s : State) : Host.Outcome State Fault Refusal :=
  execMath .add src dst s

/-- SUB, R139: `r <- (a - b) mod 65536`, src minus dst (D3, log entry 3); `WriteDst(dst, wb, r)`. -/
def execSub (src dst : Target) (s : State) : Host.Outcome State Fault Refusal :=
  execMath .sub src dst s

/-- INC, R140: `r <- (a + 1) mod 65536`, `a` the src value; `WriteDst(dst, wb, r)`. -/
def execInc (src dst : Target) (s : State) : Host.Outcome State Fault Refusal :=
  execMath .inc src dst s

/-- DEC, R141: `r <- (a - 1) mod 65536`, `a` the src value; `WriteDst(dst, wb, r)`. -/
def execDec (src dst : Target) (s : State) : Host.Outcome State Fault Refusal :=
  execMath .dec src dst s

/-- NOT, R142: `r <- ~a` at 16 bits, `a` the src value; `WriteDst(dst, wb, r)`. -/
def execNot (src dst : Target) (s : State) : Host.Outcome State Fault Refusal :=
  execMath .not src dst s

end Sys2Proof.Machine
end

