-- ==== Sys2Proof/Machine/Store.lean ====
section
/-! DEFINITION. The meanings of the six Store instructions (spec/43_store.md section 2). Each runs in the state after the opcode
fetch; the shared scheme is `execStore` (R160). -/

namespace Sys2Proof.Machine

/-- `STORE ACC, [a16]`, R161. -/
def execStoreAccAddr (s : State) : Host.Outcome State Fault Refusal :=
  execStore .acc .address s

/-- `STORE.C ACC, [a16]`, R162. -/
def execStoreCAccAddr (s : State) : Host.Outcome State Fault Refusal :=
  execStore .acc .constant s

/-- `STORE ACC, [MAR]`, R163. -/
def execStoreAccInd (s : State) : Host.Outcome State Fault Refusal :=
  execStore .acc .indirect s

/-- `STORE MAR, [a16]`, R164. -/
def execStoreMarAddr (s : State) : Host.Outcome State Fault Refusal :=
  execStore .mar .address s

/-- `STORE.C MAR, [a16]`, R165. -/
def execStoreCMarAddr (s : State) : Host.Outcome State Fault Refusal :=
  execStore .mar .constant s

/-- `STORE MAR, [MAR]`, R166. -/
def execStoreMarInd (s : State) : Host.Outcome State Fault Refusal :=
  execStore .mar .indirect s

end Sys2Proof.Machine
end

