-- ==== Sys2Proof/Machine/System.lean ====
section
/-! DEFINITION. The meanings of NOP and HAULT (spec/45_nop_hault.md). Each runs in the state after the opcode fetch. -/

namespace Sys2Proof.Machine

/-- `NOP`, R185: nothing after the opcode fetch. -/
def execNop (s : State) : Host.Outcome State Fault Refusal := .next s

/-- `HAULT`, R186: `runstate <- Halted`. -/
def execHault (s : State) : Host.Outcome State Fault Refusal := .next (halt s)

end Sys2Proof.Machine
end

