-- ==== Sys2Proof/Machine/Dispatch.lean ====
section
/-! DEFINITION. The case split of the cycle of spec/40_fetch_cycle.md R100, one arm per instruction: `exec i s` executes
`i` in the state `s` AFTER the opcode fetch (IR holds the opcode, PC points at the first operand byte). -/

namespace Sys2Proof.Machine

def exec (i : Instr) (s : State) : Host.Outcome State Fault Refusal :=
  match i with
  | .and src dst => Sys2Proof.Machine.execAnd src dst s
  | .or src dst => Sys2Proof.Machine.execOr src dst s
  | .xor src dst => Sys2Proof.Machine.execXor src dst s
  | .add src dst => Sys2Proof.Machine.execAdd src dst s
  | .sub src dst => Sys2Proof.Machine.execSub src dst s
  | .inc src dst => Sys2Proof.Machine.execInc src dst s
  | .dec src dst => Sys2Proof.Machine.execDec src dst s
  | .not src dst => Sys2Proof.Machine.execNot src dst s
  | .storeAccAddr => Sys2Proof.Machine.execStoreAccAddr s
  | .storeCAccAddr => Sys2Proof.Machine.execStoreCAccAddr s
  | .storeAccInd => Sys2Proof.Machine.execStoreAccInd s
  | .storeMarAddr => Sys2Proof.Machine.execStoreMarAddr s
  | .storeCMarAddr => Sys2Proof.Machine.execStoreCMarAddr s
  | .storeMarInd => Sys2Proof.Machine.execStoreMarInd s
  | .loadAccAddr => Sys2Proof.Machine.execLoadAccAddr s
  | .loadAccImm => Sys2Proof.Machine.execLoadAccImm s
  | .loadAccInd => Sys2Proof.Machine.execLoadAccInd s
  | .loadMarAddr => Sys2Proof.Machine.execLoadMarAddr s
  | .loadMarImm => Sys2Proof.Machine.execLoadMarImm s
  | .loadMarInd => Sys2Proof.Machine.execLoadMarInd s
  | .bra => Sys2Proof.Machine.execBra s
  | .brz => Sys2Proof.Machine.execBrz s
  | .bne => Sys2Proof.Machine.execBne s
  | .blt => Sys2Proof.Machine.execBlt s
  | .ble => Sys2Proof.Machine.execBle s
  | .bgt => Sys2Proof.Machine.execBgt s
  | .bge => Sys2Proof.Machine.execBge s
  | .nop => Sys2Proof.Machine.execNop s
  | .hault => Sys2Proof.Machine.execHault s

end Sys2Proof.Machine
end

