-- ==== Sys2Proof/Machine/Cycle.lean ====
section
/-! DEFINITION. One cycle (spec/40_fetch_cycle.md R100), and what there is instead of a cycle once the run has ended. -/

namespace Sys2Proof.Machine

/-- `Cycle()`, R100: opcode fetch, decode, execute; an illegal opcode raises IllegalOpcode with the PC after the opcode
fetch (R191). -/
def cycle (s : State) : Host.Outcome State Fault Refusal :=
  match decodeOpcode (fetchOpcode s).ir with
  | .illegal b => .next (raiseIllegalOpcode b (fetchOpcode s).pc (fetchOpcode s))
  | .ok i => exec i (fetchOpcode s)

/-- One cycle with the value `w` of ADDR_WRAP, the other parameters as in `config`: refused where `refuse` gives no step
(R27, R49). -/
def cycleUnder (w : AddrWrap) (s : State) : Host.Outcome State Fault Refusal :=
  if wrapRefused w s then .refused .addressPastTop else cycle s

/-- R31, R106, R201: no cycle runs in `Faulted`; the run has ended with the recorded fault. -/
def faultedOutcome (s : State) : Host.Outcome State Fault Refusal :=
  match s.fault with
  | some r => .fault (.illegalOpcode r.opcode r.pc)
  | none => .refused .faultedWithoutRecord

/-- One step by run state: a cycle while `Running`, no move otherwise (R31, R106). -/
def stepByRunstate (s : State) : Host.Outcome State Fault Refusal :=
  match s.runstate with
  | .running => cycleUnder config.addrWrap s
  | .halted => .refused .runHalted
  | .faulted => faultedOutcome s

end Sys2Proof.Machine
end

