-- ==== Sys2Proof/Machine/Step.lean ====
section
/-! DEFINITION. The step of the machine: one whole cycle (spec/00_scope.md R15), and the host's way to put an
instruction where the next step fetches. -/

namespace Sys2Proof.Machine

/-- One step (R15, R100, R106). -/
def step (s : State) : Host.Outcome State Fault Refusal := stepByRunstate s

/-- `s` with the instruction of a table row (its bits `w`, the bits at or above `nbits` zero) stored at PC, `Running`
and without a fault record, so that the next step runs it (log entry 12). -/
def State.withFetchWord (s : State) (nbits w : Nat) : State := placeInstruction s (tableBytes nbits w)

end Sys2Proof.Machine
end

