-- ==== Sys2Proof/Machine/Run.lean ====
section
/-! DEFINITION. The host's transactions (spec/00_scope.md R13, spec/70_reset_and_hazards.md R217): construction is
`construct` (Machine/Ops.lean); this file holds `run` under a fuel bound that the embedding imposes, and the read-back
of the memory. -/

namespace Sys2Proof.Machine

/-- What `run` returns (R106). -/
inductive TerminationReason where
  | halted
  | faulted (opcode : Byte) (pc : Word)
  deriving DecidableEq, Repr

/-- The reason a run has ended with, R106, R218; `none` while it has not ended. -/
def terminationReason (s : State) : Option TerminationReason :=
  match s.runstate with
  | .running => none
  | .halted => some .halted
  | .faulted => s.fault.map fun r => .faulted r.opcode r.pc

/-- What an executor under fuel reports (R111): the run ended, or the fuel did, which is an outcome of the executor and
not of the block (R209), or there was no step (`ADDR_WRAP` = `refuse`; a state the spec does not have). -/
inductive RunResult where
  | ended (reason : TerminationReason) (s : State)
  | outOfFuel (s : State)
  | noStep (s : State)
  deriving DecidableEq, Repr

/-- `run`, R106, for at most `fuel` cycles. -/
def runWithin (fuel : Nat) (s : State) : RunResult :=
  match terminationReason s with
  | some r => .ended r s
  | none =>
    match fuel with
    | 0 => .outOfFuel s
    | n + 1 =>
      match step s with
      | .next t => runWithin n t
      | .fault _ => .noStep s
      | .refused _ => .noStep s

/-- The full 65536-byte memory contents, as the host reads them back (R216). -/
def memoryContents (s : State) : List Byte := (List.range memorySize).map (readCell s.mem)

end Sys2Proof.Machine
end

