-- ==== Sys2Proof/Safety.lean ====
section
/-! DEFINITION. The notions claims are stated in: the invariant of the machine's states, and what one cycle is about
to do, read off the state before it (the opcode, the length, the bytes it will store to). -/

namespace Sys2Proof.Machine

/-- The opcode byte the next cycle fetches (R103). -/
def State.opcode (s : State) : Byte := readByte s.mem s.pc

/-- The run state and what it says of the other registers: no fault record unless `Faulted` (R31, R32); after HAULT,
IR holds 0x1C (R22); after a fault, the record is (IR, PC) and IR holds an illegal byte (R192). -/
def State.runstateConsistent (s : State) : Bool :=
  match s.runstate with
  | .running => s.fault == none
  | .halted => s.fault == none && s.ir == 0x1C
  | .faulted => s.fault == some { opcode := s.ir, pc := s.pc } && decodeOpcode s.ir == .illegal s.ir

/-- The invariant of every state the machine can be in: memory canonical (so in range, R35), run state consistent. -/
def State.inv (s : State) : Bool := Memory.wf s.mem && s.runstateConsistent

/-- The addresses a place in memory covers, at its width (R50); a register covers none. -/
def Place.addresses (p : Place) : List Word :=
  match p with
  | .acc => []
  | .mar => []
  | .byteAt addr => [addr]
  | .wordAt addr => [addr, addrSucc addr]

/-- Where a Mathematical instruction writes its result: the place its dst resolves to after its src was resolved. -/
def mathPlace (src dst : Target) (s : State) : Place := (resolve config dst (resolve config src s).state).place

/-- Where an instruction writes besides PC and the run state, in the state after the opcode fetch; `none` if nowhere.
A Load writes its register, a Store the bytes at its address, a Mathematical instruction its dst. -/
def writtenPlace (i : Instr) (s : State) : Option Place :=
  match i with
  | .and src dst => some (mathPlace src dst s)
  | .or src dst => some (mathPlace src dst s)
  | .xor src dst => some (mathPlace src dst s)
  | .add src dst => some (mathPlace src dst s)
  | .sub src dst => some (mathPlace src dst s)
  | .inc src dst => some (mathPlace src dst s)
  | .dec src dst => some (mathPlace src dst s)
  | .not src dst => some (mathPlace src dst s)
  | .storeAccAddr => some (.byteAt (fetchWord s).1)
  | .storeCAccAddr => some (.byteAt (fetchWord s).1)
  | .storeAccInd => some (.byteAt s.mar)
  | .storeMarAddr => some (.wordAt (fetchWord s).1)
  | .storeCMarAddr => some (.wordAt (fetchWord s).1)
  | .storeMarInd => some (.wordAt s.mar)
  | .loadAccAddr => some .acc
  | .loadAccImm => some .acc
  | .loadAccInd => some .acc
  | .loadMarAddr => some .mar
  | .loadMarImm => some .mar
  | .loadMarInd => some .mar
  | .bra => none
  | .brz => none
  | .bne => none
  | .blt => none
  | .ble => none
  | .bgt => none
  | .bge => none
  | .nop => none
  | .hault => none

/-- The branch kind of an instruction, if it is a Branch. -/
def branchKind (i : Instr) : Option BranchKind :=
  match i with
  | .and _ _ => none
  | .or _ _ => none
  | .xor _ _ => none
  | .add _ _ => none
  | .sub _ _ => none
  | .inc _ _ => none
  | .dec _ _ => none
  | .not _ _ => none
  | .storeAccAddr => none
  | .storeCAccAddr => none
  | .storeAccInd => none
  | .storeMarAddr => none
  | .storeCMarAddr => none
  | .storeMarInd => none
  | .loadAccAddr => none
  | .loadAccImm => none
  | .loadAccInd => none
  | .loadMarAddr => none
  | .loadMarImm => none
  | .loadMarInd => none
  | .bra => some .bra
  | .brz => some .brz
  | .bne => some .bne
  | .blt => some .blt
  | .ble => some .ble
  | .bgt => some .bgt
  | .bge => some .bge
  | .nop => none
  | .hault => none

/-- The 107 illegal opcode bytes as R82 lists them. -/
def listedIllegal (b : Byte) : Bool :=
  b ∈ [0x03, 0x07, 0x0B, 0x0F, 0x17, 0x19, 0x1A, 0x1B, 0x1D, 0x1E, 0x1F] || (0x20 ≤ b.toNat && b.toNat ≤ 0x7F)

/-- The length column of R84, read off the bits of the opcode byte; 1 for an illegal byte, which consumes itself. -/
def listedLength (b : Byte) : Nat :=
  if 0x80 ≤ b.toNat then 1 + (if b.toNat % 4 = 3 then 2 else 0) + (if b.toNat / 4 % 4 = 3 then 2 else 0)
  else if b = 0x09 then 2
  else if b ∈ [0x00, 0x01, 0x04, 0x05, 0x08, 0x0C, 0x0D, 0x10, 0x11, 0x12, 0x13, 0x14, 0x15, 0x16] then 3
  else 1

/-- An 8-bit operand (R126): Target Acc or Indirect. -/
def byteTarget (t : Target) : Bool :=
  match t with
  | .indirect => true
  | .acc => true
  | .mar => false
  | .memory => false

/-- A safe run: it ended, and it ended `Halted`, so no fault was taken (R201, R218). -/
def RunResult.safe (r : RunResult) : Bool :=
  match r with
  | .ended .halted _ => true
  | .ended (.faulted _ _) _ => false
  | .outOfFuel _ => false
  | .noStep _ => false

end Sys2Proof.Machine
end

