-- ==== Sys2Proof/WellFormed.lean ====
section
/-! DEFINITION. The one check on an instruction as it stands in the stream. The fields of an `Instr` are enumerations,
so no `Instr` is ill-formed by itself (R91: the field codes only select from an enumeration); what can be wrong is the
number of operand bytes, which the opcode byte alone decides (R84). -/

namespace Sys2Proof

/-- R84: exactly as many operand bytes as the opcode takes. -/
def Coded.wellFormed (c : Coded) : Bool := c.operands.length == operandBytes c.instr

end Sys2Proof
end

