-- ==== Sys2Proof/Certificates/Slice0/Obligations.lean ====
section
/-! DEFINITION. The statements for the provers. `exec i s` executes `i` in the state `s` after the opcode fetch, so a
statement about `exec` speaks of every state `s`; a statement about `step` speaks of whole cycles. Where a docstring
names a decision D<n> of spec/92_eei_decisions.md, the clause rests on the spec's own choice, logged under
notes/assumptions. -/

open Sys2Proof Sys2Proof.Machine

/-! ### Encoding and decoding -/

/-- Opcode bytes written out from the format tables of 30_encoding.md (R71 to R79), one or more for each family, decode
to the instruction they stand for. The Mathematical codes are decisions D1 and D2 (log entries 1, 2). -/
def Obligations.WrittenOutOpcodesDecode : Prop :=
  decodeOpcode 0b10000000 = .ok (.and .indirect .indirect) ∧
  decodeOpcode 0b10010111 = .ok (.or .memory .acc) ∧
  decodeOpcode 0b10101110 = .ok (.xor .mar .memory) ∧
  decodeOpcode 0b10110110 = .ok (.add .mar .acc) ∧
  decodeOpcode 0b11001001 = .ok (.sub .acc .mar) ∧
  decodeOpcode 0b11011010 = .ok (.inc .mar .mar) ∧
  decodeOpcode 0b11100000 = .ok (.dec .indirect .indirect) ∧
  decodeOpcode 0b11111100 = .ok (.not .indirect .memory) ∧
  decodeOpcode 0b00000000 = .ok .storeAccAddr ∧
  decodeOpcode 0b00000101 = .ok .storeCMarAddr ∧
  decodeOpcode 0b00001000 = .ok .loadAccAddr ∧
  decodeOpcode 0b00001101 = .ok .loadMarImm ∧
  decodeOpcode 0b00010000 = .ok .bra ∧
  decodeOpcode 0b00010110 = .ok .bge ∧
  decodeOpcode 0b00010111 = .illegal 0b00010111 ∧
  decodeOpcode 0b01111111 = .illegal 0b01111111

/-- R83: Nop is the exact byte 00011000 and Hault the exact byte 00011100, with no operand bytes. -/
def Obligations.NopAndHaultAreExactBytes : Prop :=
  (∀ b : Byte, decodeOpcode b = .ok .nop ↔ b = 0b00011000) ∧
  (∀ b : Byte, decodeOpcode b = .ok .hault ↔ b = 0b00011100) ∧
  (∀ rest : List Byte, decodeStream (0b00011000 :: rest) = .ok ⟨.nop, []⟩ rest ∧
    decodeStream (0b00011100 :: rest) = .ok ⟨.hault, []⟩ rest)

/-- R82: the illegal opcode bytes are exactly the 107 listed; fetching one as an opcode raises IllegalOpcode; once an
opcode has decoded, no byte its instruction fetches or reads raises it (the fault record stays as it was). -/
def Obligations.IllegalBytesAreExactlyTheListed107 : Prop :=
  (∀ b : Byte, decodeOpcode b = .illegal b ↔ listedIllegal b = true) ∧
  ((List.range 256).filter fun n => listedIllegal (BitVec.ofNat 8 n)).length = 107 ∧
  (∀ s : State, s.runstate = .running → listedIllegal s.opcode = true →
    ∃ t, step s = .next t ∧ t.runstate = .faulted ∧ t.fault = some { opcode := s.opcode, pc := (fetchOpcode s).pc }) ∧
  (∀ (i : Instr) (s t : State), exec i s = .next t → t.fault = s.fault)

/-- R86: for every legal byte, the codes of the decoded fields put back into their bit positions give the byte back. -/
def Obligations.DecodedFieldsGiveTheByteBack : Prop :=
  ∀ b : Byte,
    (0x80 ≤ b.toNat → ∃ f src dst, decodeOpcode b = .ok (mathInstr f src dst) ∧
      0x80 + codeOfMathFunc f * 16 + codeOfTarget dst * 4 + codeOfTarget src = b.toNat) ∧
    (b.toNat < 0x10 → listedIllegal b = false →
      (∃ r m, decodeOpcode b = .ok (loadInstr r m) ∧ 1 * 8 + codeOfReg r * 4 + codeOfMethod m = b.toNat) ∨
      (∃ r m, decodeOpcode b = .ok (storeInstr r m) ∧ 0 * 8 + codeOfReg r * 4 + codeOfMethod m = b.toNat)) ∧
    (0x10 ≤ b.toNat → b.toNat < 0x17 → ∃ k, decodeOpcode b = .ok (branchInstr k) ∧ 0x10 + codeOfBranch k = b.toNat) ∧
    (∀ i, decodeOpcode b = .ok i → opcodeOf i = b)

/-- Every instruction with every value of its operand bytes decodes, in front of any further bytes, to itself. -/
def Obligations.DecodeOfEncodeIsTheInstruction : Prop :=
  ∀ (c : Coded) (rest : List Byte), c.wellFormed = true → decodeStream (encode c ++ rest) = .ok c rest

/-- Whatever the decoder reads is well-formed, and its encoding is the bytes it was read from. -/
def Obligations.EncodeOfDecodeIsTheBytes : Prop :=
  ∀ (bytes : List Byte) (c : Coded) (rest : List Byte),
    decodeStream bytes = .ok c rest → c.wellFormed = true ∧ encode c ++ rest = bytes

/-- 30_encoding.md section 7, R84: the lengths, from the bits of the opcode byte, and how many operand bytes the decoder
takes. That field code 3 of a Mathematical opcode is the Target that takes two operand bytes is decision D2 (log
entry 2). -/
def Obligations.LengthIsDecidedByTheOpcodeByte : Prop :=
  (∀ b : Byte, bytesConsumed b = listedLength b) ∧
  (∀ (b : Byte) (bytes rest : List Byte) (c : Coded),
    decodeStream (b :: bytes) = .ok c rest → (encode c).length = listedLength b)

/-! ### Memory -/

/-- R44: a byte write sets that byte and changes no other byte and no register. -/
def Obligations.ByteWriteSetsOneByte : Prop :=
  ∀ (s : State) (a : Word) (v : Byte),
    readByte (writeByte s.mem a v) a = v ∧
    (∀ b, b ≠ a → readByte (writeByte s.mem a v) b = readByte s.mem b) ∧
    (s.setMem (writeByte s.mem a v)).acc = s.acc ∧ (s.setMem (writeByte s.mem a v)).mar = s.mar ∧
    (s.setMem (writeByte s.mem a v)).ir = s.ir ∧ (s.setMem (writeByte s.mem a v)).pc = s.pc

/-- 20_memory.md on the 16-bit access, with the wrap of decision D5 (log entry 5): a word write at `a` puts its high
byte at `a` and its low byte at the successor, leaves every other byte, and at 0xFFFF uses 0xFFFF and 0x0000; word
reads that overlap it by half see that half. -/
def Obligations.WordAccessesSeePlainBytes : Prop :=
  ∀ (m : Memory) (a v : Word),
    readByte (writeWord m a v) a = v.extractLsb' 8 8 ∧
    readByte (writeWord m a v) (a + 1) = v.extractLsb' 0 8 ∧
    (∀ b, b ≠ a → b ≠ a + 1 → readByte (writeWord m a v) b = readByte m b) ∧
    readWord (writeWord m a v) a = v ∧
    readWord (writeWord m a v) (a + 1) = v.extractLsb' 0 8 ++ readByte m (a + 2) ∧
    readWord (writeWord m a v) (a - 1) = readByte m (a - 1) ++ v.extractLsb' 8 8 ∧
    (∀ h l : Byte, readWord (writeByte (writeByte m a h) (a + 1) l) a = h ++ l) ∧
    readByte (writeWord m 0xFFFF v) 0xFFFF = v.extractLsb' 8 8 ∧
    readByte (writeWord m 0xFFFF v) 0x0000 = v.extractLsb' 0 8

/-- Memory is its bytes: two canonical memories that read alike at all 65536 addresses are the same data. -/
def Obligations.CanonicalMemoriesThatReadAlikeAreEqual : Prop :=
  ∀ m m' : Memory, Memory.wf m = true → Memory.wf m' = true →
    (∀ a : Word, readByte m a = readByte m' a) → m = m'

/-- A write of the value already present changes nothing: not even the list, if it is canonical. -/
def Obligations.WritingTheValuePresentChangesNothing : Prop :=
  ∀ (m : Memory) (a : Word), Memory.wf m = true →
    writeByte m a (readByte m a) = m ∧ writeWord m a (readWord m a) = m

/-! ### Fetch and cycle -/

/-- The fetches of 40_fetch_cycle.md, with the wrap of decision D5 (log entry 5): the byte or big-endian word at PC,
PC one or two higher modulo 65536, nothing else changed. -/
def Obligations.FetchesReadTheStreamAndAdvancePc : Prop :=
  ∀ s : State,
    (fetchByte s).1 = readByte s.mem s.pc ∧
    (fetchByte s).2 = { s with pc := s.pc + 1 } ∧
    (fetchWord s).1.toNat = (readByte s.mem s.pc).toNat * 256 + (readByte s.mem (s.pc + 1)).toNat ∧
    (fetchWord s).2 = { s with pc := s.pc + 2 } ∧
    ((fetchWord s).2.pc.toNat = (s.pc.toNat + 2) % 65536) ∧
    (s.pc = 0xFFFF → (fetchByte s).2.pc = 0x0000 ∧ (fetchWord s).2.pc = 0x0001)

/-- R103: the opcode fetch writes IR with the byte at the old PC and leaves PC one higher, and it is the first action
of every cycle, whether or not the byte is legal: after any step IR holds that byte. -/
def Obligations.EveryStepLeavesTheOpcodeInIr : Prop :=
  (∀ s : State, (fetchOpcode s).ir = s.opcode ∧ (fetchOpcode s).pc = (fetchByte s).2.pc ∧
    (s.pc ≠ 0xFFFF → (fetchOpcode s).pc.toNat = s.pc.toNat + 1)) ∧
  (∀ s t : State, step s = .next t → t.ir = s.opcode)

/-- R100: while Running, a step is the opcode fetch and then, by the decode of the byte now in IR, IllegalOpcode raised
with the PC after the fetch, or the decoded instruction executed. -/
def Obligations.StepRunsTheDecodedInstruction : Prop :=
  ∀ s : State, s.runstate = .running →
    (∀ i, decodeOpcode (fetchOpcode s).ir = .ok i → step s = exec i (fetchOpcode s)) ∧
    (∀ b, decodeOpcode (fetchOpcode s).ir = .illegal b →
      step s = .next (raiseIllegalOpcode b (fetchOpcode s).pc (fetchOpcode s))) ∧
    (∀ c : Coded, c.wellFormed = true →
      (∀ k (h : k < (encode c).length), readByte s.mem (s.pc + BitVec.ofNat 16 k) = (encode c)[k]) →
      step s = exec c.instr (fetchOpcode s))

/-- From every Running state there is a next state, and all of memory outside the one or two bytes of the decoded
instruction's place in memory reads as before; an illegal opcode, a Load, a Branch, NOP and HAULT write no byte. -/
def Obligations.EveryCycleCompletesWithAtMostOneWrite : Prop :=
  ∀ s : State, s.runstate = .running →
    ∃ t, step s = .next t ∧
      (∀ b, decodeOpcode s.opcode = .illegal b → t.mem = s.mem) ∧
      (∀ i, decodeOpcode s.opcode = .ok i →
        (writtenPlace i (fetchOpcode s) = none → t.mem = s.mem) ∧
        (∀ p, writtenPlace i (fetchOpcode s) = some p →
          p.addresses.length ≤ 2 ∧ ∀ a : Word, a ∉ p.addresses → readByte t.mem a = readByte s.mem a))

/-- 00_scope.md on the register file: a step changes ACC only as the written place of a Mathematical or Load
instruction, and likewise MAR; a Store, a Branch, NOP, HAULT and an illegal opcode change neither. -/
def Obligations.OnlyTheWrittenRegisterChanges : Prop :=
  ∀ s t : State, step s = .next t →
    (t.acc ≠ s.acc → ∃ i, decodeOpcode s.opcode = .ok i ∧ writtenPlace i (fetchOpcode s) = some .acc) ∧
    (t.mar ≠ s.mar → ∃ i, decodeOpcode s.opcode = .ok i ∧ writtenPlace i (fetchOpcode s) = some .mar)

/-- 10_state.md section 3, with the wrap of D5: after a step PC is the target of a taken branch, and otherwise the old
PC plus the number of bytes consumed, modulo 65536. -/
def Obligations.PcAfterAStep : Prop :=
  ∀ s t : State, step s = .next t →
    (∀ i k, decodeOpcode s.opcode = .ok i → branchKind i = some k → taken k s.acc = true →
      t.pc = readWord s.mem (s.pc + 1)) ∧
    ((∀ i k, decodeOpcode s.opcode = .ok i → branchKind i = some k → taken k s.acc = false) →
      t.pc.toNat = (s.pc.toNat + bytesConsumed s.opcode) % 65536)

/-- 10_state.md section 5: the run state moves from Running to Halted by HAULT, to Faulted by an illegal opcode, and
otherwise stays Running. -/
def Obligations.RunstateMovesOnlyOnHaultOrIllegalOpcode : Prop :=
  ∀ s t : State, step s = .next t →
    s.runstate = .running ∧
    (t.runstate = .halted ↔ s.opcode = 0x1C) ∧
    (t.runstate = .faulted ↔ listedIllegal s.opcode = true) ∧
    (t.runstate = .running ↔ s.opcode ≠ 0x1C ∧ listedIllegal s.opcode = false)

/-- 10_state.md section 5: the fault record is written by an illegal opcode and by nothing else. -/
def Obligations.FaultRecordIsWrittenOnlyByIllegalOpcode : Prop :=
  ∀ s t : State, step s = .next t →
    (listedIllegal s.opcode = true → t.fault = some { opcode := s.opcode, pc := (fetchOpcode s).pc }) ∧
    (listedIllegal s.opcode = false → t.fault = s.fault)

/-- R191, R192: taking IllegalOpcode records the opcode and the PC after it, which is its address plus 1 modulo
65536, leaves the same two values in IR and PC, sets Faulted, and leaves ACC, MAR and memory as they were; no further
cycle runs, and the two values are what `run` returns. -/
def Obligations.IllegalOpcodeIsTakenPrecisely : Prop :=
  ∀ (s : State) (b : Byte), s.runstate = .running → decodeOpcode s.opcode = .illegal b →
    ∃ t, step s = .next t ∧
      t.fault = some { opcode := s.opcode, pc := s.pc + 1 } ∧ t.runstate = .faulted ∧
      t.ir = s.opcode ∧ t.pc = s.pc + 1 ∧ t.pc - 1 = s.pc ∧
      t.acc = s.acc ∧ t.mar = s.mar ∧ t.mem = s.mem ∧
      terminationReason t = some (.faulted s.opcode (s.pc + 1)) ∧ ∀ u, step t ≠ .next u

/-- No cycle runs in Halted or Faulted (the spec's D13 for what ends a run). That `step` answers the refusal `runHalted`
in the one and the fault with the recorded payload in the other is this model's choice (log entries 8 and 9). -/
def Obligations.NoStepAfterTheRunHasEnded : Prop :=
  ∀ s : State,
    (s.runstate ≠ .running → ∀ t, step s ≠ .next t) ∧
    (s.runstate = .halted → step s = .refused .runHalted) ∧
    (∀ r, s.runstate = .faulted → s.fault = some r → step s = .fault (.illegalOpcode r.opcode r.pc))

/-- The model's invariant (memory canonical; run state, fault record, IR and PC consistent) is kept by every step. -/
def Obligations.EveryStepKeepsTheStateConsistent : Prop :=
  ∀ s t : State, s.inv = true → step s = .next t → t.inv = true

/-- The invariant holds after reset, whatever the image. -/
def Obligations.ResetStateIsConsistent : Prop :=
  State.reset.inv = true ∧ ∀ (image : List Byte) (s : State), construct image = .next s → s.inv = true

/-- 20_memory.md on self-modifying code: a byte that STORE ACC, [MAR] puts at the address of the next opcode is the
opcode the very next step fetches and runs. For an opcode at 0xFFFF the next opcode address is 0x0000 by decision D5
(log entry 5). -/
def Obligations.StoredCodeIsFetchedByTheNextStep : Prop :=
  ∀ s : State, s.runstate = .running → s.opcode = 0x02 → s.mar = s.pc + 1 →
    ∃ t, step s = .next t ∧ t.runstate = .running ∧ t.opcode = s.acc ∧
      (∀ i, decodeOpcode s.acc = .ok i → step t = exec i (fetchOpcode t)) ∧
      (∀ b, decodeOpcode s.acc = .illegal b → ∃ u, step t = .next u ∧ u.runstate = .faulted)

/-- The alternative value `refuse` of ADDR_WRAP (D5, log entry 5), the other parameters as the model runs with them: a
Running state has no step exactly if the cycle would increment a PC of 0xFFFF or make a 16-bit access, read or write, at
0xFFFF, and has the step of the default otherwise; so where it has a step, no PC increment, no word read (by LOAD MAR or
by a Memory operand) and no word write went past 0xFFFF. -/
def Obligations.RefuseSettingNeverWraps : Prop :=
  ∀ s : State, s.runstate = .running →
    (cycleUnder .refuse s = .refused .addressPastTop ∨ cycleUnder .refuse s = step s) ∧
    (cycleUnder .refuse s = .refused .addressPastTop ↔
      65535 < s.pc.toNat + bytesConsumed s.opcode ∨
        ∃ i, decodeOpcode s.opcode = .ok i ∧ 0xFFFF ∈ wordAccesses i (fetchOpcode s)) ∧
    (s.pc = 0xFFFF → cycleUnder .refuse s = .refused .addressPastTop) ∧
    (∀ t, cycleUnder .refuse s = .next t →
      s.pc.toNat + bytesConsumed s.opcode ≤ 65535 ∧
      ∀ i, decodeOpcode s.opcode = .ok i →
        (∀ a ∈ wordAccesses i (fetchOpcode s), a ≠ 0xFFFF) ∧
        (∀ p a, writtenPlace i (fetchOpcode s) = some p → p = .wordAt a → a ≠ 0xFFFF) ∧
        (i = .loadMarAddr → readWord s.mem (s.pc + 1) ≠ 0xFFFF) ∧
        (i = .loadMarInd → s.mar ≠ 0xFFFF) ∧
        (∀ f dst, i = mathInstr f .memory dst → readWord s.mem (s.pc + 1) ≠ 0xFFFF) ∧
        (∀ f src, i = mathInstr f src .memory →
          readWord s.mem (s.pc + 1 + (if src = .memory then 2 else 0)) ≠ 0xFFFF))

/-! ### Reset and the host's transactions -/

/-- R211, R212: the image goes into the low addresses, byte `i` to address `i`, the rest of memory reads 0x00, and the
first cycle fetches its opcode from address 0. -/
def Obligations.ConstructionPlacesTheImage : Prop :=
  ∀ image : List Byte, image.length ≤ 65536 →
    ∃ s, construct image = .next s ∧ s.pc = 0x0000 ∧
      (∀ a : Word, readByte s.mem a = image.getD a.toNat 0x00) ∧
      (∀ t, step s = .next t → t.ir = image.getD 0 0x00)

/-- 10_state.md section 8: after reset every register is zero, Running, no fault record (D11); the reset state is that
of the empty image; an image longer than the memory is refused (D18, log entry 14). -/
def Obligations.ResetValuesAndOversizeImage : Prop :=
  (∀ (image : List Byte) (s : State), construct image = .next s →
    s.acc = 0x00 ∧ s.mar = 0x0000 ∧ s.ir = 0x00 ∧ s.pc = 0x0000 ∧ s.runstate = .running ∧ s.fault = none) ∧
  construct [] = .next State.reset ∧
  (∀ image : List Byte, 65536 < image.length → construct image = .refused .imageTooLong)

/-- The run loop (40_fetch_cycle.md section 4). A state has a termination reason exactly if its run state is no longer
Running: `Halted` in Halted, and in Faulted `Faulted` with the opcode and PC of the fault record, which a consistent
state has there. And `run`, under the fuel bound of decision D15 (log entry 15), returns a reason with the first state it
reaches, in at most that many cycles, that has one. -/
def Obligations.RunReturnsWhenTheStateHasEnded : Prop :=
  (∀ s : State,
    (s.runstate = .running → terminationReason s = none) ∧
    (terminationReason s = some .halted ↔ s.runstate = .halted) ∧
    (∀ op p, terminationReason s = some (.faulted op p) ↔
      s.runstate = .faulted ∧ s.fault = some { opcode := op, pc := p }) ∧
    (s.inv = true → ((∃ r, terminationReason s = some r) ↔ s.runstate ≠ .running)) ∧
    (s.inv = true → s.runstate = .faulted → terminationReason s = some (.faulted s.ir s.pc))) ∧
  (∀ (n : Nat) (s t : State) (r : TerminationReason),
    runWithin n s = .ended r t ↔
      ∃ k, k ≤ n ∧ Host.Core.run core k s = .next t ∧ terminationReason t = some r)

/-! ### The alu and the Mathematical family -/

/-- 41_mathematical.md section 2: the eight functions as arithmetic on 0 to 65535 (Sub by decision D3, log entry 3);
INC, DEC and NOT do not depend on `b`. -/
def Obligations.AluComputesTheEightFunctions : Prop :=
  ∀ a b : Word,
    (∀ k, (alu config .and a b).getLsbD k = (a.getLsbD k && b.getLsbD k)) ∧
    (∀ k, (alu config .or a b).getLsbD k = (a.getLsbD k || b.getLsbD k)) ∧
    (∀ k, (alu config .xor a b).getLsbD k = Bool.xor (a.getLsbD k) (b.getLsbD k)) ∧
    (alu config .add a b).toNat = (a.toNat + b.toNat) % 65536 ∧
    ((alu config .sub a b).toNat : Int) = ((a.toNat : Int) - b.toNat) % 65536 ∧
    (alu config .inc a b).toNat = (a.toNat + 1) % 65536 ∧
    ((alu config .dec a b).toNat : Int) = ((a.toNat : Int) - 1) % 65536 ∧
    (alu config .not a b).toNat = 65535 - a.toNat

/-- 41_mathematical.md section 2, the width law: at an 8-bit destination every function is the 8-bit function of the
low bytes, under either subtraction order. -/
def Obligations.TruncationCommutesWithTheAlu : Prop :=
  ∀ (c : Config) (f : MathFunc) (a b : Word), lowByte (alu c f a b) = alu8 c f (lowByte a) (lowByte b)

/-- 41_mathematical.md section 1, widening: the choice of D4 shows in exactly one case, an 8-bit src with a 16-bit dst:
elsewhere the two settings give the same state, and for every such pair of Targets some state tells them apart. -/
def Obligations.WideningShowsOnlyFromByteToWord : Prop :=
  (∀ (o : SubOrder) (w : AddrWrap) (f : MathFunc) (src dst : Target) (s : State),
    ¬ (byteTarget src = true ∧ byteTarget dst = false) →
      mathResult ⟨o, .zero, w⟩ f src dst s = mathResult ⟨o, .sign, w⟩ f src dst s) ∧
  (∀ (o : SubOrder) (w : AddrWrap) (src dst : Target), byteTarget src = true → byteTarget dst = false →
    ∃ s : State, mathResult ⟨o, .zero, w⟩ .not src dst s ≠ mathResult ⟨o, .sign, w⟩ .not src dst s)

/-- R123, R124: Target Mar is MAR itself with no writeback address; Target Memory fetches an address from the stream,
reads the big-endian word there, and is written back there at 16 bits. -/
def Obligations.WordOperandsResolve : Prop :=
  ∀ s : State,
    resolve config .mar s = { value := s.mar, place := .mar, state := s } ∧
    (resolve config .memory s).state = (fetchWord s).2 ∧
    (resolve config .memory s).value.toNat =
      (readByte s.mem (fetchWord s).1).toNat * 256 + (readByte s.mem (addrSucc (fetchWord s).1)).toNat ∧
    (resolve config .memory s).place = .wordAt (fetchWord s).1

/-- 41_mathematical.md section 1: Target Acc and Target Indirect enter zero-extended (D4, log entry 4): bits 15 to 8 are
0 and the low byte is ACC, or the byte at MAR; neither consumes a stream byte. -/
def Obligations.ByteOperandsResolveZeroExtended : Prop :=
  ∀ s : State,
    (resolve config .acc s).value.toNat = s.acc.toNat ∧ (resolve config .acc s).place = .acc ∧
    (resolve config .acc s).state = s ∧
    (resolve config .indirect s).value.toNat = (readByte s.mem s.mar).toNat ∧
    (resolve config .indirect s).place = .byteAt s.mar ∧ (resolve config .indirect s).state = s

/-- R125: the result is written at the width of the dst: ACC gets `r[7:0]`, MAR all of `r`, an Indirect place the byte
`r[7:0]`, a Memory place the word `r`; nothing else changes; an Indirect dst is at the MAR it was resolved with,
whatever the src. -/
def Obligations.WriteBackIsAtTheWidthOfTheDst : Prop :=
  ∀ (s : State) (r a : Word),
    writeDst .acc r s = { s with acc := r.extractLsb' 0 8 } ∧
    writeDst .mar r s = { s with mar := r } ∧
    (∃ m, writeDst (.byteAt a) r s = { s with mem := m } ∧ readByte m a = r.extractLsb' 0 8 ∧
      ∀ b, b ≠ a → readByte m b = readByte s.mem b) ∧
    (∃ m, writeDst (.wordAt a) r s = { s with mem := m } ∧ readWord m a = r ∧
      ∀ b, b ≠ a → b ≠ addrSucc a → readByte m b = readByte s.mem b) ∧
    (∀ src, mathPlace src .indirect s = .byteAt s.mar)

/-- AND (41_mathematical.md section 4): completes with `a & b` written to dst, for every pair of Targets; `AND x, x`
leaves every register and byte; an 8-bit src clears the high byte of a 16-bit dst (D4). -/
def Obligations.AndWritesTheConjunction : Prop :=
  ∀ s : State,
    (∀ src dst, exec (.and src dst) s =
      .next (writeDst (resolve config dst (resolve config src s).state).place
        ((resolve config src s).value &&& (resolve config dst (resolve config src s).state).value)
        (resolve config dst (resolve config src s).state).state)) ∧
    exec (.and .acc .acc) s = .next s ∧
    exec (.and .mar .mar) s = .next s ∧
    (∃ t, exec (.and .indirect .indirect) s = .next t ∧ t = { s with mem := t.mem } ∧
      ∀ a, readByte t.mem a = readByte s.mem a) ∧
    (∃ t, exec (.and .acc .mar) s = .next t ∧ t = { s with mar := t.mar } ∧
      t.mar.toNat = (s.acc &&& s.mar.extractLsb' 0 8).toNat) ∧
    (∃ t, exec (.and .indirect .memory) s = .next t ∧ readByte t.mem (fetchWord s).1 = 0x00)

/-- OR (41_mathematical.md section 4): completes with `a | b` written to dst, for every pair of Targets; `OR x, x`
leaves the registers; an 8-bit src leaves the high byte of a 16-bit dst (D4). -/
def Obligations.OrWritesTheDisjunction : Prop :=
  ∀ s : State,
    (∀ src dst, exec (.or src dst) s =
      .next (writeDst (resolve config dst (resolve config src s).state).place
        ((resolve config src s).value ||| (resolve config dst (resolve config src s).state).value)
        (resolve config dst (resolve config src s).state).state)) ∧
    exec (.or .acc .acc) s = .next s ∧
    exec (.or .mar .mar) s = .next s ∧
    (∃ t, exec (.or .acc .mar) s = .next t ∧ t = { s with mar := t.mar } ∧
      t.mar.extractLsb' 8 8 = s.mar.extractLsb' 8 8 ∧ t.mar.extractLsb' 0 8 = s.acc ||| s.mar.extractLsb' 0 8) ∧
    (∃ t, exec (.or .acc .memory) s = .next t ∧
      readByte t.mem (fetchWord s).1 = readByte s.mem (fetchWord s).1 ∧
      readByte t.mem (addrSucc (fetchWord s).1) = s.acc ||| readByte s.mem (addrSucc (fetchWord s).1))

/-- XOR (41_mathematical.md section 4): completes with `a ^ b` written to dst, for every pair of Targets; `XOR x, x`
clears x; an 8-bit src leaves the high byte of a 16-bit dst (D4). -/
def Obligations.XorWritesTheDifferenceBits : Prop :=
  ∀ s : State,
    (∀ src dst, exec (.xor src dst) s =
      .next (writeDst (resolve config dst (resolve config src s).state).place
        ((resolve config src s).value ^^^ (resolve config dst (resolve config src s).state).value)
        (resolve config dst (resolve config src s).state).state)) ∧
    exec (.xor .acc .acc) s = .next { s with acc := 0x00 } ∧
    exec (.xor .mar .mar) s = .next { s with mar := 0x0000 } ∧
    (∃ t, exec (.xor .indirect .indirect) s = .next t ∧ t = { s with mem := t.mem } ∧
      readByte t.mem s.mar = 0x00 ∧ ∀ a, a ≠ s.mar → readByte t.mem a = readByte s.mem a) ∧
    (∃ t, exec (.xor .acc .mar) s = .next t ∧ t = { s with mar := t.mar } ∧
      t.mar.extractLsb' 8 8 = s.mar.extractLsb' 8 8 ∧ t.mar.extractLsb' 0 8 = s.acc ^^^ s.mar.extractLsb' 0 8)

/-- ADD (41_mathematical.md section 4): completes with `(a + b) mod 65536` written to dst, for every pair of Targets;
`ADD ACC, ACC` doubles ACC at 8 bits; a byte is added unsigned into a word (D4); only the low byte of MAR counts in
ACC. -/
def Obligations.AddWritesTheSum : Prop :=
  ∀ s : State,
    (∀ src dst, exec (.add src dst) s =
      .next (writeDst (resolve config dst (resolve config src s).state).place
        ((resolve config src s).value + (resolve config dst (resolve config src s).state).value)
        (resolve config dst (resolve config src s).state).state)) ∧
    (∃ t, exec (.add .acc .acc) s = .next t ∧ t = { s with acc := t.acc } ∧
      t.acc.toNat = (2 * s.acc.toNat) % 256) ∧
    (∃ t, exec (.add .acc .mar) s = .next t ∧ t = { s with mar := t.mar } ∧
      t.mar.toNat = (s.acc.toNat + s.mar.toNat) % 65536) ∧
    (∃ t, exec (.add .mar .acc) s = .next t ∧ t = { s with acc := t.acc } ∧
      t.acc.toNat = (s.acc.toNat + s.mar.toNat % 256) % 256)

/-- SUB (41_mathematical.md section 4): completes with src minus dst written to dst, for every pair of Targets, the
order by decision D3 (log entry 3); `SUB x, x` gives 0. -/
def Obligations.SubWritesSrcMinusDst : Prop :=
  ∀ s : State,
    (∀ src dst, exec (.sub src dst) s =
      .next (writeDst (resolve config dst (resolve config src s).state).place
        ((resolve config src s).value - (resolve config dst (resolve config src s).state).value)
        (resolve config dst (resolve config src s).state).state)) ∧
    exec (.sub .acc .acc) s = .next { s with acc := 0x00 } ∧
    exec (.sub .mar .mar) s = .next { s with mar := 0x0000 } ∧
    (∃ t, exec (.sub .acc .mar) s = .next t ∧ t = { s with mar := t.mar } ∧
      (t.mar.toNat : Int) = ((s.acc.toNat : Int) - s.mar.toNat) % 65536) ∧
    (∃ t, exec (.sub .mar .acc) s = .next t ∧ t = { s with acc := t.acc } ∧
      (t.acc.toNat : Int) = ((s.mar.toNat : Int) - s.acc.toNat) % 256)

/-- INC (41_mathematical.md section 4): completes with the src value plus 1 written to dst, for every pair of Targets,
whatever dst held; in place at 8 and at 16 bits with wrap; from ACC into MAR without wrap at 8 bits (D4). -/
def Obligations.IncWritesSrcPlusOne : Prop :=
  ∀ s : State,
    (∀ src dst, exec (.inc src dst) s =
      .next (writeDst (resolve config dst (resolve config src s).state).place ((resolve config src s).value + 1)
        (resolve config dst (resolve config src s).state).state)) ∧
    exec (.inc .acc .acc) s = .next { s with acc := s.acc + 1 } ∧
    exec (.inc .mar .mar) s = .next { s with mar := s.mar + 1 } ∧
    (∃ t, exec (.inc .acc .mar) s = .next t ∧ t = { s with mar := t.mar } ∧ t.mar.toNat = s.acc.toNat + 1) ∧
    (∃ t, exec (.inc .indirect .indirect) s = .next t ∧ t = { s with mem := t.mem } ∧
      readByte t.mem s.mar = readByte s.mem s.mar + 1 ∧ ∀ a, a ≠ s.mar → readByte t.mem a = readByte s.mem a) ∧
    ((fetchWord (fetchWord s).2).1 = (fetchWord s).1 →
      ∃ t, exec (.inc .memory .memory) s = .next t ∧
        readWord t.mem (fetchWord s).1 = readWord s.mem (fetchWord s).1 + 1)

/-- DEC (41_mathematical.md section 4): completes with the src value minus 1 written to dst, for every pair of Targets,
whatever dst held; in place at 8 and at 16 bits with wrap; ACC = 0 into MAR gives 0xFFFF (D4). -/
def Obligations.DecWritesSrcMinusOne : Prop :=
  ∀ s : State,
    (∀ src dst, exec (.dec src dst) s =
      .next (writeDst (resolve config dst (resolve config src s).state).place ((resolve config src s).value - 1)
        (resolve config dst (resolve config src s).state).state)) ∧
    exec (.dec .acc .acc) s = .next { s with acc := s.acc - 1 } ∧
    exec (.dec .mar .mar) s = .next { s with mar := s.mar - 1 } ∧
    (∃ t, exec (.dec .acc .mar) s = .next t ∧ t = { s with mar := t.mar } ∧
      t.mar.toNat = if s.acc = 0x00 then 0xFFFF else s.acc.toNat - 1) ∧
    (∃ t, exec (.dec .mar .acc) s = .next t ∧ t = { s with acc := t.acc } ∧
      t.acc = s.mar.extractLsb' 0 8 - 1)

/-- NOT (41_mathematical.md section 4): completes with the ones-complement of the src value at 16 bits written to dst,
for every pair of Targets, whatever dst held; an 8-bit src gives a 16-bit dst a high byte of 0xFF (D4). -/
def Obligations.NotWritesTheComplementOfSrc : Prop :=
  ∀ s : State,
    (∀ src dst, exec (.not src dst) s =
      .next (writeDst (resolve config dst (resolve config src s).state).place (~~~(resolve config src s).value)
        (resolve config dst (resolve config src s).state).state)) ∧
    exec (.not .acc .acc) s = .next { s with acc := ~~~s.acc } ∧
    exec (.not .mar .mar) s = .next { s with mar := ~~~s.mar } ∧
    exec (.not .acc .mar) s = .next { s with mar := 0xFF#8 ++ ~~~s.acc } ∧
    exec (.not .mar .acc) s = .next { s with acc := ~~~(s.mar.extractLsb' 0 8) } ∧
    (∃ t, exec (.not .indirect .memory) s = .next t ∧ readByte t.mem (fetchWord s).1 = 0xFF)

/-- 41_mathematical.md section 2 (with the wrap of PC by D5): a Mathematical cycle completes for all eight functions
and all sixteen pairs of Targets, and changes exactly PC (by its length), IR (the opcode) and its dst: ACC only if dst
is Acc, MAR only if dst is Mar, memory only in the bytes of the place dst resolves to (one at MAR for Indirect, two at
the stream address for Memory). -/
def Obligations.MathematicalCycleChangesOnlyItsDst : Prop :=
  ∀ (s : State) (f : MathFunc) (src dst : Target), s.runstate = .running →
    decodeOpcode s.opcode = .ok (mathInstr f src dst) →
    ∃ t, step s = .next t ∧ exec (mathInstr f src dst) (fetchOpcode s) = .next t ∧
      t.ir = s.opcode ∧ t.runstate = .running ∧ t.fault = s.fault ∧
      t.pc = s.pc + 1 + (if src = .memory then 2 else 0) + (if dst = .memory then 2 else 0) ∧
      (dst ≠ .acc → t.acc = s.acc) ∧ (dst ≠ .mar → t.mar = s.mar) ∧
      (∀ a, a ∉ (mathPlace src dst (fetchOpcode s)).addresses → readByte t.mem a = readByte s.mem a) ∧
      (dst = .acc ∨ dst = .mar → t.mem = s.mem) ∧
      (dst = .indirect → mathPlace src dst (fetchOpcode s) = .byteAt s.mar) ∧
      (dst = .memory → mathPlace src dst (fetchOpcode s) =
        .wordAt (readWord s.mem (s.pc + 1 + (if src = .memory then 2 else 0))))

/-! ### Load -/

/-- R151, R152, R153: the three LOAD ACC instructions complete with ACC holding the byte at the fetched address, the
fetched byte, or the byte at MAR; nothing else changes but PC by the operand bytes fetched; and they are what the
opcodes 0x08, 0x09, 0x0A run. -/
def Obligations.LoadAccCompletes : Prop :=
  ∀ s : State,
    exec .loadAccAddr s = .next { (fetchWord s).2 with acc := readByte s.mem (fetchWord s).1 } ∧
    exec .loadAccImm s = .next { (fetchByte s).2 with acc := (fetchByte s).1 } ∧
    exec .loadAccInd s = .next { s with acc := readByte s.mem s.mar } ∧
    (s.runstate = .running → s.opcode = 0x08 → step s = exec .loadAccAddr (fetchOpcode s)) ∧
    (s.runstate = .running → s.opcode = 0x09 → step s = exec .loadAccImm (fetchOpcode s)) ∧
    (s.runstate = .running → s.opcode = 0x0A → step s = exec .loadAccInd (fetchOpcode s))

/-- R154, R155, R156: the three LOAD MAR instructions complete with MAR holding the big-endian word at the fetched
address, the fetched word, or the word the old MAR points at; nothing else changes but PC by the operand bytes fetched;
and they are what the opcodes 0x0C, 0x0D, 0x0E run. -/
def Obligations.LoadMarCompletes : Prop :=
  ∀ s : State,
    exec .loadMarAddr s = .next { (fetchWord s).2 with
      mar := readByte s.mem (fetchWord s).1 ++ readByte s.mem (addrSucc (fetchWord s).1) } ∧
    exec .loadMarImm s = .next { (fetchWord s).2 with mar := (fetchWord s).1 } ∧
    exec .loadMarInd s = .next { s with mar := readByte s.mem s.mar ++ readByte s.mem (addrSucc s.mar) } ∧
    (s.runstate = .running → s.opcode = 0x0C → step s = exec .loadMarAddr (fetchOpcode s)) ∧
    (s.runstate = .running → s.opcode = 0x0D → step s = exec .loadMarImm (fetchOpcode s)) ∧
    (s.runstate = .running → s.opcode = 0x0E → step s = exec .loadMarInd (fetchOpcode s))

/-- 42_load.md section 1 (with the wrap of PC by D5): every Load cycle completes and changes exactly its register, PC
and IR: never memory, never the other register, never the run state or the fault record. -/
def Obligations.LoadCycleChangesOnlyItsRegister : Prop :=
  ∀ (s : State) (r : Reg) (m : Method), s.runstate = .running →
    decodeOpcode s.opcode = .ok (loadInstr r m) →
    ∃ t, step s = .next t ∧ t.ir = s.opcode ∧ t.runstate = .running ∧ t.fault = s.fault ∧ t.mem = s.mem ∧
      (r = .acc → t.mar = s.mar) ∧ (r = .mar → t.acc = s.acc) ∧
      t.pc = s.pc + 1 + BitVec.ofNat 16 (operandBytes (loadInstr r m))

/-! ### Store -/

/-- 43_store.md section 2 (width of the write by decision D10, log entry 6): the three STORE ACC instructions complete
with ACC in the one byte at the fetched address, or at MAR; every other byte and register is unchanged but PC by the
operand bytes fetched; and they are what the opcodes 0x00, 0x01, 0x02 run. -/
def Obligations.StoreAccCompletes : Prop :=
  ∀ s : State,
    (∃ t, exec .storeAccAddr s = .next t ∧ t = { (fetchWord s).2 with mem := t.mem } ∧
      readByte t.mem (fetchWord s).1 = s.acc ∧
      ∀ a, a ≠ (fetchWord s).1 → readByte t.mem a = readByte s.mem a) ∧
    (∃ t, exec .storeCAccAddr s = .next t ∧ t = { (fetchWord s).2 with mem := t.mem } ∧
      readByte t.mem (fetchWord s).1 = s.acc ∧
      ∀ a, a ≠ (fetchWord s).1 → readByte t.mem a = readByte s.mem a) ∧
    (∃ t, exec .storeAccInd s = .next t ∧ t = { s with mem := t.mem } ∧ readByte t.mem s.mar = s.acc ∧
      ∀ a, a ≠ s.mar → readByte t.mem a = readByte s.mem a) ∧
    (s.runstate = .running → s.opcode = 0x00 → step s = exec .storeAccAddr (fetchOpcode s)) ∧
    (s.runstate = .running → s.opcode = 0x01 → step s = exec .storeCAccAddr (fetchOpcode s)) ∧
    (s.runstate = .running → s.opcode = 0x02 → step s = exec .storeAccInd (fetchOpcode s))

/-- 43_store.md section 2 (width of the write by D10, its wrap at 0xFFFF by D5): the three STORE MAR instructions
complete with MAR[15:8] at the fetched address, or at MAR, and MAR[7:0] at its successor; every other byte and register
is unchanged but PC by the operand bytes fetched; and they are what the opcodes 0x04, 0x05, 0x06 run. -/
def Obligations.StoreMarCompletes : Prop :=
  ∀ s : State,
    (∃ t, exec .storeMarAddr s = .next t ∧ t = { (fetchWord s).2 with mem := t.mem } ∧
      readByte t.mem (fetchWord s).1 = s.mar.extractLsb' 8 8 ∧
      readByte t.mem ((fetchWord s).1 + 1) = s.mar.extractLsb' 0 8 ∧
      ∀ a, a ≠ (fetchWord s).1 → a ≠ (fetchWord s).1 + 1 → readByte t.mem a = readByte s.mem a) ∧
    (∃ t, exec .storeCMarAddr s = .next t ∧ t = { (fetchWord s).2 with mem := t.mem } ∧
      readByte t.mem (fetchWord s).1 = s.mar.extractLsb' 8 8 ∧
      readByte t.mem ((fetchWord s).1 + 1) = s.mar.extractLsb' 0 8 ∧
      ∀ a, a ≠ (fetchWord s).1 → a ≠ (fetchWord s).1 + 1 → readByte t.mem a = readByte s.mem a) ∧
    (∃ t, exec .storeMarInd s = .next t ∧ t = { s with mem := t.mem } ∧
      readByte t.mem s.mar = s.mar.extractLsb' 8 8 ∧ readByte t.mem (s.mar + 1) = s.mar.extractLsb' 0 8 ∧
      ∀ a, a ≠ s.mar → a ≠ s.mar + 1 → readByte t.mem a = readByte s.mem a) ∧
    (s.runstate = .running → s.opcode = 0x04 → step s = exec .storeMarAddr (fetchOpcode s)) ∧
    (s.runstate = .running → s.opcode = 0x05 → step s = exec .storeCMarAddr (fetchOpcode s)) ∧
    (s.runstate = .running → s.opcode = 0x06 → step s = exec .storeMarInd (fetchOpcode s))

/-- R168: the Constant method of a Store is an alias of the Address method: it takes a 16-bit address operand, for Acc
as well, and has the same effect, though the two decode to distinct instructions. -/
def Obligations.StoreConstantIsAnAliasOfAddress : Prop :=
  (∀ s : State, exec .storeCAccAddr s = exec .storeAccAddr s ∧ exec .storeCMarAddr s = exec .storeMarAddr s) ∧
  operandBytes .storeCAccAddr = 2 ∧ operandBytes .storeCMarAddr = 2 ∧
  (∀ (r : Reg) (s : State), storeAddress .constant s = fetchWord s ∧
    (storeInstr r .constant ≠ storeInstr r .address))

/-- 43_store.md section 2, the store into its own bytes: a STORE ACC, [a16] whose address is its own first operand byte
uses the address it was fetched with, and leaves ACC there for later fetches. At the top of memory its operand bytes
and the PC after it wrap by decision D5 (log entry 5). -/
def Obligations.StoreOverItsOwnBytesExecutesAsFetched : Prop :=
  ∀ s : State, s.runstate = .running → s.opcode = 0x00 → readWord s.mem (s.pc + 1) = s.pc + 1 →
    ∃ t, step s = .next t ∧ readByte t.mem (s.pc + 1) = s.acc ∧ t.pc = s.pc + 3 ∧
      ∀ a, a ≠ s.pc + 1 → readByte t.mem a = readByte s.mem a

/-! ### Branch, NOP, HAULT -/

/-- R172: the branch condition on the signed reading of ACC, and, for the seven instructions, on its bits: BRA reads
none, BLT and BGE read bit 7, BRZ and BNE compare with 0x00, BLE and BGT do both. -/
def Obligations.BranchConditionReadsAccSigned : Prop :=
  (∀ acc : Byte,
    taken .bra acc = true ∧ (taken .brz acc = true ↔ acc.toInt = 0) ∧ (taken .bne acc = true ↔ acc.toInt ≠ 0) ∧
    (taken .blt acc = true ↔ acc.toInt < 0) ∧ (taken .ble acc = true ↔ acc.toInt ≤ 0) ∧
    (taken .bgt acc = true ↔ acc.toInt > 0) ∧ (taken .bge acc = true ↔ acc.toInt ≥ 0)) ∧
  (∀ s : State, ∃ u v, u = { (fetchWord s).2 with pc := (fetchWord s).1 } ∧ v = (fetchWord s).2 ∧
    exec .bra s = .next u ∧
    exec .brz s = .next (if s.acc = 0x00 then u else v) ∧
    exec .bne s = .next (if s.acc = 0x00 then v else u) ∧
    exec .blt s = .next (if s.acc.getLsbD 7 then u else v) ∧
    exec .ble s = .next (if s.acc.getLsbD 7 || s.acc == 0x00 then u else v) ∧
    exec .bgt s = .next (if s.acc.getLsbD 7 || s.acc == 0x00 then v else u) ∧
    exec .bge s = .next (if s.acc.getLsbD 7 then v else u))

/-- R170, R176 to R182: each of the seven branches completes with PC at the fetched target exactly if its
condition on ACC holds, and past the two target bytes otherwise, and changes nothing else; and they are what the
opcodes 0x10 to 0x16 run. -/
def Obligations.BranchesComplete : Prop :=
  ∀ s : State,
    exec .bra s = .next { (fetchWord s).2 with pc := (fetchWord s).1 } ∧
    exec .brz s = .next (if s.acc = 0x00 then { (fetchWord s).2 with pc := (fetchWord s).1 } else (fetchWord s).2) ∧
    exec .bne s = .next (if s.acc ≠ 0x00 then { (fetchWord s).2 with pc := (fetchWord s).1 } else (fetchWord s).2) ∧
    exec .blt s = .next (if s.acc.toInt < 0 then { (fetchWord s).2 with pc := (fetchWord s).1 } else (fetchWord s).2) ∧
    exec .ble s = .next (if s.acc.toInt ≤ 0 then { (fetchWord s).2 with pc := (fetchWord s).1 } else (fetchWord s).2) ∧
    exec .bgt s = .next (if s.acc.toInt > 0 then { (fetchWord s).2 with pc := (fetchWord s).1 } else (fetchWord s).2) ∧
    exec .bge s = .next (if s.acc.toInt ≥ 0 then { (fetchWord s).2 with pc := (fetchWord s).1 } else (fetchWord s).2) ∧
    (s.runstate = .running →
      (s.opcode = 0x10 → step s = exec .bra (fetchOpcode s)) ∧ (s.opcode = 0x11 → step s = exec .brz (fetchOpcode s)) ∧
      (s.opcode = 0x12 → step s = exec .bne (fetchOpcode s)) ∧ (s.opcode = 0x13 → step s = exec .blt (fetchOpcode s)) ∧
      (s.opcode = 0x14 → step s = exec .ble (fetchOpcode s)) ∧ (s.opcode = 0x15 → step s = exec .bgt (fetchOpcode s)) ∧
      (s.opcode = 0x16 → step s = exec .bge (fetchOpcode s)))

/-- 44_branch.md section 1 (with the wrap of PC by D5): a Branch cycle at address `p` with target `t` ends with PC `t`
if taken and `(p + 3) mod 65536` if not, IR the opcode, and ACC, MAR, memory, run state and fault record unchanged. -/
def Obligations.BranchCycleOutcome : Prop :=
  ∀ (s : State) (k : BranchKind), s.runstate = .running → decodeOpcode s.opcode = .ok (branchInstr k) →
    step s = .next { s with
      ir := s.opcode, pc := if taken k s.acc then readWord s.mem (s.pc + 1) else s.pc + 3 }

/-- R185: NOP completes and does nothing after the opcode fetch: the cycle sets IR to 0x18 and PC to PC + 1 by that one
fetch, and ACC, MAR, memory, run state and fault record are unchanged. -/
def Obligations.NopOnlyAdvances : Prop :=
  ∀ s : State,
    exec .nop s = .next s ∧
    (s.runstate = .running → s.opcode = 0x18 →
      ∃ t, step s = .next t ∧ t = { s with ir := 0x18, pc := (fetchByte s).2.pc } ∧
        (s.pc ≠ 0xFFFF → t.pc.toNat = s.pc.toNat + 1))

/-- R186: HAULT completes with Halted; the cycle leaves IR = 0x1C and PC past the HAULT byte, where its fetch put it, and
ACC, MAR, memory and the fault record unchanged; `run` then returns `Halted` and no further cycle runs. -/
def Obligations.HaultEndsTheRun : Prop :=
  ∀ s : State,
    exec .hault s = .next { s with runstate := .halted } ∧
    (s.runstate = .running → s.opcode = 0x1C →
      ∃ t, step s = .next t ∧ t = { s with ir := 0x1C, pc := (fetchByte s).2.pc, runstate := .halted } ∧
        (s.pc ≠ 0xFFFF → t.pc.toNat = s.pc.toNat + 1) ∧
        (∀ n, runWithin (n + 1) s = .ended .halted t) ∧ ∀ u, step t ≠ .next u)
end

