-- ==== Sys2Proof/Laws/Memory.lean ====
section
/-! SUPPORT. The laws of the memory list: reads after writes (with no premise on the list), the canonical form kept by
every memory operation, and canonical memories equal as soon as they read alike. -/

namespace Sys2Proof.Machine

/-! ### Read after write -/

theorem readCell_eraseCell_self (m : Memory) (a : Nat) : readCell (eraseCell m a) a = unlistedByte := by
  induction m with
  | nil => rfl
  | cons c m ih =>
    by_cases h : c.1 = a <;> simp [eraseCell, readCell, h, ih]

theorem readCell_eraseCell_other (m : Memory) {a b : Nat} (h : b ≠ a) :
    readCell (eraseCell m a) b = readCell m b := by
  induction m with
  | nil => rfl
  | cons c m ih =>
    by_cases hc : c.1 = a
    · have hb : c.1 ≠ b := fun e => h (e.symm.trans hc)
      simp [eraseCell, readCell, hc, ih]
      intro e; exact absurd e.symm h
    · simp [eraseCell, readCell, hc, ih]

/-- `a` is not a key of `m`. -/
def Memory.free (m : Memory) (a : Nat) : Prop := ∀ c ∈ m, c.1 ≠ a

theorem eraseCell_free (m : Memory) (a : Nat) : Memory.free (eraseCell m a) a := by
  induction m with
  | nil => intro c hc; cases hc
  | cons c m ih =>
    intro d hd
    by_cases h : c.1 = a
    · rw [eraseCell, if_pos h] at hd; exact ih d hd
    · rw [eraseCell, if_neg h, List.mem_cons] at hd
      rcases hd with rfl | hd
      · exact h
      · exact ih d hd

theorem readCell_insertCell_self (m : Memory) (a : Nat) (v : Byte) (h : Memory.free m a) :
    readCell (insertCell m a v) a = v := by
  induction m with
  | nil => simp [insertCell, readCell]
  | cons c m ih =>
    have hc : c.1 ≠ a := h c (by simp)
    have hm : Memory.free m a := fun d hd => h d (by simp [hd])
    by_cases hlt : a < c.1 <;> simp [insertCell, readCell, hlt, hc, ih hm]

theorem readCell_insertCell_other (m : Memory) {a b : Nat} (v : Byte) (h : b ≠ a) :
    readCell (insertCell m a v) b = readCell m b := by
  induction m with
  | nil => simp [insertCell, readCell, Ne.symm h]
  | cons c m ih =>
    by_cases hlt : a < c.1 <;> simp [insertCell, readCell, hlt, ih, Ne.symm h]

theorem readCell_writeCell_self (m : Memory) (a : Nat) (v : Byte) : readCell (writeCell m a v) a = v := by
  unfold writeCell
  split
  · next h => rw [readCell_eraseCell_self, h]
  · exact readCell_insertCell_self _ _ _ (eraseCell_free m a)

theorem readCell_writeCell_other (m : Memory) {a b : Nat} (v : Byte) (h : b ≠ a) :
    readCell (writeCell m a v) b = readCell m b := by
  unfold writeCell
  split
  · exact readCell_eraseCell_other m h
  · rw [readCell_insertCell_other _ v h, readCell_eraseCell_other m h]

@[simp] theorem readByte_writeByte_self (m : Memory) (a : Word) (v : Byte) : readByte (writeByte m a v) a = v :=
  readCell_writeCell_self m a.toNat v

theorem readByte_writeByte_other (m : Memory) {a b : Word} (v : Byte) (h : b ≠ a) :
    readByte (writeByte m a v) b = readByte m b :=
  readCell_writeCell_other m v fun e => h (BitVec.eq_of_toNat_eq e)

/-- The byte read at `b` after a byte write at `a`. -/
theorem readByte_writeByte (m : Memory) (a b : Word) (v : Byte) :
    readByte (writeByte m a v) b = if b = a then v else readByte m b := by
  by_cases h : b = a
  · subst h; simp
  · simp [h, readByte_writeByte_other m v h]

theorem addrSucc_ne (a : Word) : addrSucc a ≠ a := by unfold addrSucc; bv_omega

theorem readByte_writeWord_high (m : Memory) (a v : Word) : readByte (writeWord m a v) a = highByte v := by
  rw [writeWord, readByte_writeByte_other _ _ (addrSucc_ne a).symm, readByte_writeByte_self]

@[simp] theorem readByte_writeWord_low (m : Memory) (a v : Word) :
    readByte (writeWord m a v) (addrSucc a) = lowByte v := by
  rw [writeWord, readByte_writeByte_self]

theorem readByte_writeWord_other (m : Memory) {a b : Word} (v : Word) (h : b ≠ a) (h' : b ≠ addrSucc a) :
    readByte (writeWord m a v) b = readByte m b := by
  rw [writeWord, readByte_writeByte_other _ _ h', readByte_writeByte_other _ _ h]

/-! ### Byte order -/

@[simp] theorem highByte_joinBytes (h l : Byte) : highByte (joinBytes h l) = h := by
  apply BitVec.eq_of_getLsbD_eq
  intro i hi
  simp only [highByte, joinBytes, BitVec.getLsbD_append, BitVec.getLsbD_extractLsb']
  simp [hi]

@[simp] theorem lowByte_joinBytes (h l : Byte) : lowByte (joinBytes h l) = l := by
  apply BitVec.eq_of_getLsbD_eq
  intro i hi
  simp only [lowByte, joinBytes, BitVec.getLsbD_append, BitVec.getLsbD_extractLsb']
  simp [hi]

@[simp] theorem joinBytes_high_low (v : Word) : joinBytes (highByte v) (lowByte v) = v := by
  apply BitVec.eq_of_getLsbD_eq
  intro i hi
  simp only [highByte, joinBytes, lowByte, BitVec.getLsbD_append, BitVec.getLsbD_extractLsb']
  by_cases h : i < 8
  · simp [h]
  · have h8 : 8 + (i - 8) = i := by omega
    have h9 : i - 8 < 8 := by omega
    simp [h, h8, h9]

theorem readWord_writeWord_self (m : Memory) (a v : Word) : readWord (writeWord m a v) a = v := by
  rw [readWord, readByte_writeWord_high, readByte_writeWord_low, joinBytes_high_low]

/-! ### The canonical form -/

theorem above_of_le {m : Memory} {a b : Nat} (h : Memory.above b m = true) (hab : a ≤ b) :
    Memory.above a m = true := by
  induction m with
  | nil => rfl
  | cons c m ih =>
    simp only [Memory.above, Bool.and_eq_true, decide_eq_true_eq] at h ⊢
    exact ⟨by omega, ih h.2⟩

theorem above_eraseCell {m : Memory} {a b : Nat} (h : Memory.above b m = true) :
    Memory.above b (eraseCell m a) = true := by
  induction m with
  | nil => rfl
  | cons c m ih =>
    simp only [Memory.above, Bool.and_eq_true, decide_eq_true_eq] at h
    unfold eraseCell
    split
    · exact ih h.2
    · simp [Memory.above, h.1, ih h.2]

theorem above_insertCell {m : Memory} {a b : Nat} (v : Byte) (h : Memory.above b m = true) (hab : b < a) :
    Memory.above b (insertCell m a v) = true := by
  induction m with
  | nil => simp [insertCell, Memory.above, hab]
  | cons c m ih =>
    have h' := h
    simp only [Memory.above, Bool.and_eq_true, decide_eq_true_eq] at h
    unfold insertCell
    split
    · simpa [Memory.above, hab] using h'
    · simp [Memory.above, h.1, ih h.2]

/-- What canonical means of a list with a head. -/
theorem wf_cons {c : Host.Cell} {m : Memory} :
    Memory.wf (c :: m) = true ↔
      c.1 < memorySize ∧ c.2 ≠ unlistedByte ∧ Memory.above c.1 m = true ∧ Memory.wf m = true := by
  simp [Memory.wf, and_assoc]

theorem wf_eraseCell {m : Memory} (a : Nat) (h : Memory.wf m = true) : Memory.wf (eraseCell m a) = true := by
  induction m with
  | nil => rfl
  | cons c m ih =>
    obtain ⟨h1, h2, h3, h4⟩ := wf_cons.mp h
    unfold eraseCell
    split
    · exact ih h4
    · exact wf_cons.mpr ⟨h1, h2, above_eraseCell h3, ih h4⟩

theorem wf_insertCell {m : Memory} {a : Nat} {v : Byte} (h : Memory.wf m = true) (ha : a < memorySize)
    (hv : v ≠ unlistedByte) (hfree : Memory.free m a) : Memory.wf (insertCell m a v) = true := by
  induction m with
  | nil => exact wf_cons.mpr ⟨ha, hv, rfl, rfl⟩
  | cons c m ih =>
    obtain ⟨h1, h2, h3, h4⟩ := wf_cons.mp h
    have hc : c.1 ≠ a := hfree c (by simp)
    have hm : Memory.free m a := fun d hd => hfree d (by simp [hd])
    unfold insertCell
    split
    · next hlt =>
      refine wf_cons.mpr ⟨ha, hv, ?_, h⟩
      simp [Memory.above, hlt, above_of_le h3 (Nat.le_of_lt hlt)]
    · next hlt =>
      have hca : c.1 < a := by omega
      exact wf_cons.mpr ⟨h1, h2, above_insertCell v h3 hca, ih h4 hm⟩

theorem wf_writeCell {m : Memory} {a : Nat} (v : Byte) (h : Memory.wf m = true) (ha : a < memorySize) :
    Memory.wf (writeCell m a v) = true := by
  unfold writeCell
  split
  · exact wf_eraseCell a h
  · next hv => exact wf_insertCell (wf_eraseCell a h) ha hv (eraseCell_free m a)

theorem toNat_lt_memorySize (a : Word) : a.toNat < memorySize := a.isLt

@[simp] theorem wf_writeByte {m : Memory} (a : Word) (v : Byte) (h : Memory.wf m = true) :
    Memory.wf (writeByte m a v) = true :=
  wf_writeCell v h (toNat_lt_memorySize a)

@[simp] theorem wf_writeWord {m : Memory} (a v : Word) (h : Memory.wf m = true) :
    Memory.wf (writeWord m a v) = true :=
  wf_writeByte _ _ (wf_writeByte _ _ h)

theorem wf_writeBytes {m : Memory} (bytes : List Byte) (a : Word) (h : Memory.wf m = true) :
    Memory.wf (writeBytes m a bytes) = true := by
  induction bytes generalizing m a with
  | nil => exact h
  | cons b bytes ih => exact ih _ (wf_writeByte _ _ h)

theorem above_imageFrom {a b : Nat} (bytes : List Byte) (h : b < a) : Memory.above b (imageFrom a bytes) = true := by
  induction bytes generalizing a with
  | nil => rfl
  | cons x bytes ih =>
    unfold imageFrom
    split
    · exact ih (by omega)
    · simp [Memory.above, h, ih (Nat.lt_succ_of_lt h)]

/-- The memory of an image that fits is canonical. -/
theorem wf_imageFrom (a : Nat) (bytes : List Byte) (h : a + bytes.length ≤ memorySize) :
    Memory.wf (imageFrom a bytes) = true := by
  induction bytes generalizing a with
  | nil => rfl
  | cons x bytes ih =>
    simp only [List.length_cons] at h
    unfold imageFrom
    split
    · exact ih (a + 1) (by omega)
    · next hx =>
      exact wf_cons.mpr ⟨by show a < memorySize; omega, hx, above_imageFrom bytes (Nat.lt_succ_self a), ih (a + 1) (by omega)⟩

/-- An address at or below `b` is not listed in a memory whose cells lie above `b`. -/
theorem readCell_of_above {m : Memory} {a b : Nat} (h : Memory.above b m = true) (hab : a ≤ b) :
    readCell m a = unlistedByte := by
  induction m with
  | nil => rfl
  | cons c m ih =>
    simp only [Memory.above, Bool.and_eq_true, decide_eq_true_eq] at h
    have hc : c.1 ≠ a := by omega
    simp [readCell, hc, ih h.2]

end Sys2Proof.Machine
end

