-- ==== Sys2Proof/Laws/State.lean ====
section
/-! SUPPORT. One lemma per field per register write, each true by definition, so that no later proof unfolds a record
update. -/

namespace Sys2Proof.Machine

variable (s : State)

/-! `setAcc` -/

@[simp] theorem State.setAcc_acc (v : Byte) : (s.setAcc v).acc = v := rfl
@[simp] theorem State.setAcc_mar (v : Byte) : (s.setAcc v).mar = s.mar := rfl
@[simp] theorem State.setAcc_ir (v : Byte) : (s.setAcc v).ir = s.ir := rfl
@[simp] theorem State.setAcc_pc (v : Byte) : (s.setAcc v).pc = s.pc := rfl
@[simp] theorem State.setAcc_runstate (v : Byte) : (s.setAcc v).runstate = s.runstate := rfl
@[simp] theorem State.setAcc_fault (v : Byte) : (s.setAcc v).fault = s.fault := rfl
@[simp] theorem State.setAcc_mem (v : Byte) : (s.setAcc v).mem = s.mem := rfl

/-! `setMar` -/

@[simp] theorem State.setMar_acc (v : Word) : (s.setMar v).acc = s.acc := rfl
@[simp] theorem State.setMar_mar (v : Word) : (s.setMar v).mar = v := rfl
@[simp] theorem State.setMar_ir (v : Word) : (s.setMar v).ir = s.ir := rfl
@[simp] theorem State.setMar_pc (v : Word) : (s.setMar v).pc = s.pc := rfl
@[simp] theorem State.setMar_runstate (v : Word) : (s.setMar v).runstate = s.runstate := rfl
@[simp] theorem State.setMar_fault (v : Word) : (s.setMar v).fault = s.fault := rfl
@[simp] theorem State.setMar_mem (v : Word) : (s.setMar v).mem = s.mem := rfl

/-! `setIr` -/

@[simp] theorem State.setIr_acc (v : Byte) : (s.setIr v).acc = s.acc := rfl
@[simp] theorem State.setIr_mar (v : Byte) : (s.setIr v).mar = s.mar := rfl
@[simp] theorem State.setIr_ir (v : Byte) : (s.setIr v).ir = v := rfl
@[simp] theorem State.setIr_pc (v : Byte) : (s.setIr v).pc = s.pc := rfl
@[simp] theorem State.setIr_runstate (v : Byte) : (s.setIr v).runstate = s.runstate := rfl
@[simp] theorem State.setIr_fault (v : Byte) : (s.setIr v).fault = s.fault := rfl
@[simp] theorem State.setIr_mem (v : Byte) : (s.setIr v).mem = s.mem := rfl

/-! `setPc` -/

@[simp] theorem State.setPc_acc (v : Word) : (s.setPc v).acc = s.acc := rfl
@[simp] theorem State.setPc_mar (v : Word) : (s.setPc v).mar = s.mar := rfl
@[simp] theorem State.setPc_ir (v : Word) : (s.setPc v).ir = s.ir := rfl
@[simp] theorem State.setPc_pc (v : Word) : (s.setPc v).pc = v := rfl
@[simp] theorem State.setPc_runstate (v : Word) : (s.setPc v).runstate = s.runstate := rfl
@[simp] theorem State.setPc_fault (v : Word) : (s.setPc v).fault = s.fault := rfl
@[simp] theorem State.setPc_mem (v : Word) : (s.setPc v).mem = s.mem := rfl

/-! `setRunstate` -/

@[simp] theorem State.setRunstate_acc (v : RunState) : (s.setRunstate v).acc = s.acc := rfl
@[simp] theorem State.setRunstate_mar (v : RunState) : (s.setRunstate v).mar = s.mar := rfl
@[simp] theorem State.setRunstate_ir (v : RunState) : (s.setRunstate v).ir = s.ir := rfl
@[simp] theorem State.setRunstate_pc (v : RunState) : (s.setRunstate v).pc = s.pc := rfl
@[simp] theorem State.setRunstate_runstate (v : RunState) : (s.setRunstate v).runstate = v := rfl
@[simp] theorem State.setRunstate_fault (v : RunState) : (s.setRunstate v).fault = s.fault := rfl
@[simp] theorem State.setRunstate_mem (v : RunState) : (s.setRunstate v).mem = s.mem := rfl

/-! `setFault` -/

@[simp] theorem State.setFault_acc (v : Option FaultRecord) : (s.setFault v).acc = s.acc := rfl
@[simp] theorem State.setFault_mar (v : Option FaultRecord) : (s.setFault v).mar = s.mar := rfl
@[simp] theorem State.setFault_ir (v : Option FaultRecord) : (s.setFault v).ir = s.ir := rfl
@[simp] theorem State.setFault_pc (v : Option FaultRecord) : (s.setFault v).pc = s.pc := rfl
@[simp] theorem State.setFault_runstate (v : Option FaultRecord) : (s.setFault v).runstate = s.runstate := rfl
@[simp] theorem State.setFault_fault (v : Option FaultRecord) : (s.setFault v).fault = v := rfl
@[simp] theorem State.setFault_mem (v : Option FaultRecord) : (s.setFault v).mem = s.mem := rfl

/-! `setMem` -/

@[simp] theorem State.setMem_acc (v : Memory) : (s.setMem v).acc = s.acc := rfl
@[simp] theorem State.setMem_mar (v : Memory) : (s.setMem v).mar = s.mar := rfl
@[simp] theorem State.setMem_ir (v : Memory) : (s.setMem v).ir = s.ir := rfl
@[simp] theorem State.setMem_pc (v : Memory) : (s.setMem v).pc = s.pc := rfl
@[simp] theorem State.setMem_runstate (v : Memory) : (s.setMem v).runstate = s.runstate := rfl
@[simp] theorem State.setMem_fault (v : Memory) : (s.setMem v).fault = s.fault := rfl
@[simp] theorem State.setMem_mem (v : Memory) : (s.setMem v).mem = v := rfl

/-- Two states with the same fields are the same state. -/
theorem State.eq_of_fields (s t : State) (hacc : s.acc = t.acc) (hmar : s.mar = t.mar) (hir : s.ir = t.ir)
    (hpc : s.pc = t.pc) (hrun : s.runstate = t.runstate) (hfault : s.fault = t.fault) (hmem : s.mem = t.mem) :
    s = t := by
  cases s; cases t; simp_all

end Sys2Proof.Machine
end

