-- ==== Sys2Proof/Laws/Ops.lean ====
section
/-! SUPPORT. One specification lemma per shared operation: what a fetch gives, what taking the exception and the halt
change, what an operand resolves to, what a write-back and a family's scheme do. Later proofs cite these. -/

namespace Sys2Proof.Machine

variable (s : State)

/-! ### Fetches -/

@[simp] theorem pcMux_increment (p : Word) : pcMux .increment p = addrSucc p := rfl
@[simp] theorem pcMux_target (t p : Word) : pcMux (.target t) p = t := rfl

@[simp] theorem fetchByte_value : (fetchByte s).1 = readByte s.mem s.pc := rfl
@[simp] theorem fetchByte_state : (fetchByte s).2 = s.setPc (addrSucc s.pc) := rfl

/-- `FetchWord()` reads the big-endian word at PC. -/
@[simp] theorem fetchWord_value : (fetchWord s).1 = readWord s.mem s.pc := rfl

/-- `FetchWord()` changes PC only, by two. -/
@[simp] theorem fetchWord_state : (fetchWord s).2 = s.setPc (addrSucc (addrSucc s.pc)) := rfl

/-- The opcode fetch changes IR and PC only. -/
theorem fetchOpcode_eq : fetchOpcode s = (s.setPc (addrSucc s.pc)).setIr (readByte s.mem s.pc) := rfl

@[simp] theorem fetchOpcode_acc : (fetchOpcode s).acc = s.acc := rfl
@[simp] theorem fetchOpcode_mar : (fetchOpcode s).mar = s.mar := rfl
@[simp] theorem fetchOpcode_ir : (fetchOpcode s).ir = readByte s.mem s.pc := rfl
@[simp] theorem fetchOpcode_pc : (fetchOpcode s).pc = addrSucc s.pc := rfl
@[simp] theorem fetchOpcode_runstate : (fetchOpcode s).runstate = s.runstate := rfl
@[simp] theorem fetchOpcode_fault : (fetchOpcode s).fault = s.fault := rfl
@[simp] theorem fetchOpcode_mem : (fetchOpcode s).mem = s.mem := rfl

/-! ### Ends of a run -/

/-- Taking the exception writes the fault record and the run state, and nothing else. -/
theorem raiseIllegalOpcode_eq (op : Byte) (p : Word) :
    raiseIllegalOpcode op p s = (s.setFault (some { opcode := op, pc := p })).setRunstate .faulted := rfl

theorem halt_eq : halt s = s.setRunstate .halted := rfl

/-! ### Operands -/

@[simp] theorem lowByte_widenByte (w : Widen) (v : Byte) : lowByte (widenByte w v) = v := by
  apply BitVec.eq_of_getLsbD_eq
  intro i hi
  cases w <;> simp [lowByte, widenByte, hi, BitVec.getLsbD_setWidth, BitVec.getLsbD_signExtend] <;> omega

variable (c : Config)

@[simp] theorem resolve_indirect :
    resolve c .indirect s = ⟨widenByte c.widen (readByte s.mem s.mar), .byteAt s.mar, s⟩ := rfl
@[simp] theorem resolve_acc : resolve c .acc s = ⟨widenByte c.widen s.acc, .acc, s⟩ := rfl
@[simp] theorem resolve_mar : resolve c .mar s = ⟨s.mar, .mar, s⟩ := rfl
@[simp] theorem resolve_memory :
    resolve c .memory s =
      ⟨readWord s.mem (readWord s.mem s.pc), .wordAt (readWord s.mem s.pc), s.setPc (addrSucc (addrSucc s.pc))⟩ := rfl

/-- Resolving an operand moves PC over its stream bytes and changes nothing else. -/
theorem resolve_state (t : Target) :
    (resolve c t s).state = s.setPc (s.pc + BitVec.ofNat 16 (targetBytes t)) := by
  cases s; cases t <;> simp [targetBytes, State.setPc, addrSucc, BitVec.add_assoc]

@[simp] theorem writeDst_acc (r : Word) : writeDst .acc r s = s.setAcc (lowByte r) := rfl
@[simp] theorem writeDst_mar (r : Word) : writeDst .mar r s = s.setMar r := rfl
@[simp] theorem writeDst_byteAt (a r : Word) :
    writeDst (.byteAt a) r s = s.setMem (writeByte s.mem a (lowByte r)) := rfl
@[simp] theorem writeDst_wordAt (a r : Word) : writeDst (.wordAt a) r s = s.setMem (writeWord s.mem a r) := rfl

/-- A write-back touches neither IR, PC, the run state nor the fault record. -/
theorem writeDst_frame (p : Place) (r : Word) :
    (writeDst p r s).ir = s.ir ∧ (writeDst p r s).pc = s.pc ∧ (writeDst p r s).runstate = s.runstate ∧
      (writeDst p r s).fault = s.fault := by
  cases p <;> simp

/-- A write-back keeps memory canonical. -/
theorem writeDst_wf (p : Place) (r : Word) (h : Memory.wf s.mem = true) : Memory.wf (writeDst p r s).mem = true := by
  cases p <;> simp [h]

/-- What a Mathematical instruction leaves of the registers its write-back does not own. -/
theorem mathResult_frame (f : MathFunc) (src dst : Target) :
    (mathResult c f src dst s).ir = s.ir ∧
      (mathResult c f src dst s).pc = s.pc + BitVec.ofNat 16 (targetBytes src) + BitVec.ofNat 16 (targetBytes dst) ∧
      (mathResult c f src dst s).runstate = s.runstate ∧ (mathResult c f src dst s).fault = s.fault := by
  have h := writeDst_frame (resolve c dst (resolve c src s).state).state (resolve c dst (resolve c src s).state).place
    (alu c f (resolve c src s).value (resolve c dst (resolve c src s).state).value)
  simpa only [mathResult, resolve_state, State.setPc_ir, State.setPc_pc, State.setPc_runstate, State.setPc_fault] using h

/-- A Mathematical instruction keeps memory canonical. -/
theorem mathResult_wf (f : MathFunc) (src dst : Target) (h : Memory.wf s.mem = true) :
    Memory.wf (mathResult c f src dst s).mem = true := by
  apply writeDst_wf
  simpa only [resolve_state, State.setPc_mem] using h

/-! ### The schemes of the families -/

/-- A Mathematical instruction always completes. -/
theorem execMath_next (f : MathFunc) (src dst : Target) :
    execMath f src dst s = .next (mathResult config f src dst s) := rfl

/-- A Load always completes; it changes its register and PC only. -/
theorem execLoad_next (r : Reg) (m : Method) :
    ∃ t, execLoad r m s = .next t ∧ t.ir = s.ir ∧ t.runstate = s.runstate ∧ t.fault = s.fault ∧ t.mem = s.mem := by
  cases r <;> cases m <;> exact ⟨_, rfl, rfl, rfl, rfl, rfl⟩

/-- A Store always completes; it changes PC and the bytes at its address only. -/
theorem execStore_next (r : Reg) (m : Method) :
    ∃ t, execStore r m s = .next t ∧ t.acc = s.acc ∧ t.mar = s.mar ∧ t.ir = s.ir ∧ t.runstate = s.runstate ∧
      t.fault = s.fault ∧ (Memory.wf s.mem = true → Memory.wf t.mem = true) := by
  cases r <;> cases m <;> exact ⟨_, rfl, rfl, rfl, rfl, rfl, rfl, fun h => by simp [storeTo, storeAddress, h]⟩

/-- A Branch always completes; it changes PC only, to its target or past its two target bytes. -/
theorem execBranch_eq (k : BranchKind) :
    execBranch k s =
      .next (s.setPc (if taken k s.acc then readWord s.mem s.pc else addrSucc (addrSucc s.pc))) := by
  unfold execBranch
  cases h : taken k s.acc
  · simp [h]
  · simp [h]; rfl

end Sys2Proof.Machine
end

