-- ==== Sys2Proof/Laws/Exec.lean ====
section
/-! SUPPORT. The 29 instructions by the spec's six variants (spec/30_encoding.md R80), and what `exec` is on each
variant, so that a proof over all instructions has six cases and cites the family's specification lemma. -/

namespace Sys2Proof.Machine

/-- Every instruction is one of the spec's variants. -/
theorem instr_variants (i : Instr) :
    (∃ f src dst, i = mathInstr f src dst) ∨ (∃ r m, i = loadInstr r m) ∨ (∃ r m, i = storeInstr r m) ∨
      (∃ k, i = branchInstr k) ∨ i = .nop ∨ i = .hault := by
  cases i with
  | and src dst => exact .inl ⟨.and, src, dst, rfl⟩
  | or src dst => exact .inl ⟨.or, src, dst, rfl⟩
  | xor src dst => exact .inl ⟨.xor, src, dst, rfl⟩
  | add src dst => exact .inl ⟨.add, src, dst, rfl⟩
  | sub src dst => exact .inl ⟨.sub, src, dst, rfl⟩
  | inc src dst => exact .inl ⟨.inc, src, dst, rfl⟩
  | dec src dst => exact .inl ⟨.dec, src, dst, rfl⟩
  | not src dst => exact .inl ⟨.not, src, dst, rfl⟩
  | loadAccAddr => exact .inr (.inl ⟨.acc, .address, rfl⟩)
  | loadAccImm => exact .inr (.inl ⟨.acc, .constant, rfl⟩)
  | loadAccInd => exact .inr (.inl ⟨.acc, .indirect, rfl⟩)
  | loadMarAddr => exact .inr (.inl ⟨.mar, .address, rfl⟩)
  | loadMarImm => exact .inr (.inl ⟨.mar, .constant, rfl⟩)
  | loadMarInd => exact .inr (.inl ⟨.mar, .indirect, rfl⟩)
  | storeAccAddr => exact .inr (.inr (.inl ⟨.acc, .address, rfl⟩))
  | storeCAccAddr => exact .inr (.inr (.inl ⟨.acc, .constant, rfl⟩))
  | storeAccInd => exact .inr (.inr (.inl ⟨.acc, .indirect, rfl⟩))
  | storeMarAddr => exact .inr (.inr (.inl ⟨.mar, .address, rfl⟩))
  | storeCMarAddr => exact .inr (.inr (.inl ⟨.mar, .constant, rfl⟩))
  | storeMarInd => exact .inr (.inr (.inl ⟨.mar, .indirect, rfl⟩))
  | bra => exact .inr (.inr (.inr (.inl ⟨.bra, rfl⟩)))
  | brz => exact .inr (.inr (.inr (.inl ⟨.brz, rfl⟩)))
  | bne => exact .inr (.inr (.inr (.inl ⟨.bne, rfl⟩)))
  | blt => exact .inr (.inr (.inr (.inl ⟨.blt, rfl⟩)))
  | ble => exact .inr (.inr (.inr (.inl ⟨.ble, rfl⟩)))
  | bgt => exact .inr (.inr (.inr (.inl ⟨.bgt, rfl⟩)))
  | bge => exact .inr (.inr (.inr (.inl ⟨.bge, rfl⟩)))
  | nop => exact .inr (.inr (.inr (.inr (.inl rfl))))
  | hault => exact .inr (.inr (.inr (.inr (.inr rfl))))

variable (s : State)

theorem exec_mathInstr (f : MathFunc) (src dst : Target) :
    exec (mathInstr f src dst) s = .next (mathResult config f src dst s) := by cases f <;> rfl

theorem exec_loadInstr (r : Reg) (m : Method) : exec (loadInstr r m) s = execLoad r m s := by
  cases r <;> cases m <;> rfl

theorem exec_storeInstr (r : Reg) (m : Method) : exec (storeInstr r m) s = execStore r m s := by
  cases r <;> cases m <;> rfl

theorem exec_branchInstr (k : BranchKind) : exec (branchInstr k) s = execBranch k s := by cases k <;> rfl

theorem exec_nop : exec .nop s = .next s := rfl

theorem exec_hault : exec .hault s = .next (s.setRunstate .halted) := rfl

/-- Every instruction has a next state, in every state. -/
theorem exec_next (i : Instr) : ∃ t, exec i s = .next t := by
  obtain ⟨f, src, dst, rfl⟩ | ⟨r, m, rfl⟩ | ⟨r, m, rfl⟩ | ⟨k, rfl⟩ | rfl | rfl := instr_variants i
  · exact ⟨_, exec_mathInstr s f src dst⟩
  · obtain ⟨t, ht, -⟩ := execLoad_next s r m
    exact ⟨t, (exec_loadInstr s r m).trans ht⟩
  · obtain ⟨t, ht, -⟩ := execStore_next s r m
    exact ⟨t, (exec_storeInstr s r m).trans ht⟩
  · exact ⟨_, (exec_branchInstr s k).trans (execBranch_eq s k)⟩
  · exact ⟨_, exec_nop s⟩
  · exact ⟨_, exec_hault s⟩

end Sys2Proof.Machine
end

