-- ==== Sys2Proof/Laws/PerInstr.lean ====
section
/-! SUPPORT. Statements made per instruction: the family `RoundTrip` says of an instruction that its opcode byte decodes
to it (spec/30_encoding.md R86). -/

namespace Sys2Proof.Laws.RoundTrip

/-- The opcode byte of `i` decodes to `i`. -/
def Statement (i : Instr) : Prop := decodeOpcode (opcodeOf i) = .ok i

theorem and (src dst : Target) : Statement (.and src dst) := by cases src <;> cases dst <;> rfl
theorem or (src dst : Target) : Statement (.or src dst) := by cases src <;> cases dst <;> rfl
theorem xor (src dst : Target) : Statement (.xor src dst) := by cases src <;> cases dst <;> rfl
theorem add (src dst : Target) : Statement (.add src dst) := by cases src <;> cases dst <;> rfl
theorem sub (src dst : Target) : Statement (.sub src dst) := by cases src <;> cases dst <;> rfl
theorem inc (src dst : Target) : Statement (.inc src dst) := by cases src <;> cases dst <;> rfl
theorem dec (src dst : Target) : Statement (.dec src dst) := by cases src <;> cases dst <;> rfl
theorem not (src dst : Target) : Statement (.not src dst) := by cases src <;> cases dst <;> rfl
theorem storeAccAddr : Statement .storeAccAddr := rfl
theorem storeCAccAddr : Statement .storeCAccAddr := rfl
theorem storeAccInd : Statement .storeAccInd := rfl
theorem storeMarAddr : Statement .storeMarAddr := rfl
theorem storeCMarAddr : Statement .storeCMarAddr := rfl
theorem storeMarInd : Statement .storeMarInd := rfl
theorem loadAccAddr : Statement .loadAccAddr := rfl
theorem loadAccImm : Statement .loadAccImm := rfl
theorem loadAccInd : Statement .loadAccInd := rfl
theorem loadMarAddr : Statement .loadMarAddr := rfl
theorem loadMarImm : Statement .loadMarImm := rfl
theorem loadMarInd : Statement .loadMarInd := rfl
theorem bra : Statement .bra := rfl
theorem brz : Statement .brz := rfl
theorem bne : Statement .bne := rfl
theorem blt : Statement .blt := rfl
theorem ble : Statement .ble := rfl
theorem bgt : Statement .bgt := rfl
theorem bge : Statement .bge := rfl
theorem nop : Statement .nop := rfl
theorem hault : Statement .hault := rfl

end Sys2Proof.Laws.RoundTrip
end

