-- ==== Sys2Proof/Laws/Step.lean ====
section
/-! SUPPORT. What one step can do, said once: the inversion lemma of `step`, and the equations of `step` by run state
and by decode result. -/

namespace Sys2Proof.Machine

/-- With the parameters the model runs with, no cycle is refused for crossing the top of memory. -/
@[simp] theorem wrapRefused_config (s : State) : wrapRefused config.addrWrap s = false := rfl

/-- Under `refuse` a cycle is refused exactly if it crosses the top of memory, and is the default cycle otherwise. -/
theorem cycleUnder_refuse (s : State) :
    cycleUnder .refuse s = if crossesTop s then .refused .addressPastTop else cycle s := rfl

/-- What crossing the top of memory is: the PC increments leave 0xFFFF, or a 16-bit access of the instruction is there. -/
theorem crossesTop_iff (s : State) :
    crossesTop s = true ↔ 65535 < s.pc.toNat + bytesConsumed (readByte s.mem s.pc) ∨
      ∃ i, decodeOpcode (readByte s.mem s.pc) = .ok i ∧ 0xFFFF ∈ wordAccesses i (fetchOpcode s) := by
  have top : memorySize ≤ s.pc.toNat + bytesConsumed (readByte s.mem s.pc) ↔
      65535 < s.pc.toNat + bytesConsumed (readByte s.mem s.pc) := Iff.rfl
  cases h : decodeOpcode (readByte s.mem s.pc) <;> simp [crossesTop, h, top]

theorem step_running {s : State} (h : s.runstate = .running) : step s = cycle s := by
  simp [step, stepByRunstate, h, cycleUnder]

theorem step_halted {s : State} (h : s.runstate = .halted) : step s = .refused .runHalted := by
  simp [step, stepByRunstate, h]

theorem step_faulted {s : State} (h : s.runstate = .faulted) : step s = faultedOutcome s := by
  simp [step, stepByRunstate, h]

theorem cycle_ok {s : State} {i : Instr} (h : decodeOpcode (readByte s.mem s.pc) = .ok i) :
    cycle s = exec i (fetchOpcode s) := by
  simp [cycle, h]

theorem cycle_illegal {s : State} {b : Byte} (h : decodeOpcode (readByte s.mem s.pc) = .illegal b) :
    cycle s = .next (raiseIllegalOpcode b (addrSucc s.pc) (fetchOpcode s)) := by
  simp [cycle, h]

/-- `Illegal` carries the byte it was asked about. -/
theorem decodeOpcode_illegal_byte {b b' : Byte} (h : decodeOpcode b = .illegal b') : b' = b := by
  unfold decodeOpcode at h
  split at h
  · cases h
  · split at h
    · split at h
      · cases h; rfl
      · split at h <;> cases h
    · split at h
      · split at h
        · cases h; rfl
        · cases h
      · split at h
        · cases h
        · split at h
          · cases h
          · cases h; rfl

/-- Everything a step can do when it answers a next state: the run was going on, and either the opcode at PC was illegal
and the exception was taken, or it decoded and the step is that instruction's meaning. -/
theorem step_next_cases {s t : State} (h : step s = .next t) :
    s.runstate = .running ∧
      ((decodeOpcode (readByte s.mem s.pc) = .illegal (readByte s.mem s.pc) ∧
          t = raiseIllegalOpcode (readByte s.mem s.pc) (addrSucc s.pc) (fetchOpcode s)) ∨
        ∃ i, decodeOpcode (readByte s.mem s.pc) = .ok i ∧ exec i (fetchOpcode s) = .next t) := by
  cases hr : s.runstate with
  | halted => rw [step_halted hr] at h; cases h
  | faulted =>
    rw [step_faulted hr] at h
    unfold faultedOutcome at h
    split at h <;> cases h
  | running =>
    refine ⟨rfl, ?_⟩
    rw [step_running hr] at h
    cases hd : decodeOpcode (readByte s.mem s.pc) with
    | illegal b =>
      have hb := decodeOpcode_illegal_byte hd
      rw [cycle_illegal hd] at h
      subst hb
      cases h
      exact .inl ⟨rfl, rfl⟩
    | ok i =>
      rw [cycle_ok hd] at h
      exact .inr ⟨i, rfl, h⟩

end Sys2Proof.Machine
end

