-- ==== Sys2Proof/Tests/Slice0.lean ====
section
/-! SUPPORT. Small tests. Opcode bytes are written out bit by bit from the format tables of spec/30_encoding.md; the
results of single steps are those of the vectors of spec/95_test_vectors.md (section named at each group). The second
half holds, for each statement with hypotheses, states and operands that meet them. -/

namespace Sys2Proof.Tests

open Sys2Proof.Machine

/-! ### Encoding -/

/-- A decoding test: the byte and what it decodes to. -/
def decodesTo (rows : List (Byte × Instr)) : Bool := rows.all fun r => decodeOpcode r.1 == .ok r.2

theorem test_decode_mathematical_words : decodesTo
    [(0b10000000, .and .indirect .indirect), (0b10001001, .and .acc .mar), (0b10010111, .or .memory .acc),
      (0b10011110, .or .mar .memory), (0b10100101, .xor .acc .acc), (0b10101110, .xor .mar .memory),
      (0b10110110, .add .mar .acc), (0b10111111, .add .memory .memory), (0b11000100, .sub .indirect .acc),
      (0b11001001, .sub .acc .mar), (0b11011010, .inc .mar .mar), (0b11010000, .inc .indirect .indirect),
      (0b11100000, .dec .indirect .indirect), (0b11100110, .dec .mar .acc), (0b11111100, .not .indirect .memory),
      (0b11111111, .not .memory .memory)] = true := by decide

theorem test_decode_store_words : decodesTo
    [(0b00000000, .storeAccAddr), (0b00000001, .storeCAccAddr), (0b00000010, .storeAccInd),
      (0b00000100, .storeMarAddr), (0b00000101, .storeCMarAddr), (0b00000110, .storeMarInd)] = true := by decide

theorem test_decode_load_words : decodesTo
    [(0b00001000, .loadAccAddr), (0b00001001, .loadAccImm), (0b00001010, .loadAccInd),
      (0b00001100, .loadMarAddr), (0b00001101, .loadMarImm), (0b00001110, .loadMarInd)] = true := by decide

theorem test_decode_branch_nop_hault_words : decodesTo
    [(0b00010000, .bra), (0b00010001, .brz), (0b00010010, .bne), (0b00010011, .blt), (0b00010100, .ble),
      (0b00010101, .bgt), (0b00010110, .bge), (0b00011000, .nop), (0b00011100, .hault)] = true := by decide

theorem test_decode_illegal_words :
    ([0x03, 0x07, 0x0B, 0x0F, 0x17, 0x19, 0x1A, 0x1B, 0x1D, 0x1E, 0x1F, 0x20, 0x40, 0x7F].all
      fun b => decodeOpcode b == .illegal b) = true := by decide

/-- The source's example S2 is overruled: 0x00 is the Store, 0x08 the Load (90_conflicts.md C1). -/
theorem test_decode_zero_is_the_store :
    decodeOpcode 0x00 = .ok .storeAccAddr ∧ decodeOpcode 0x08 = .ok .loadAccAddr := by decide

/-- `ADD [0x0100], [0x0200]` is `BF 01 00 02 00`: the src address first (R92). -/
theorem test_encode_add_memory_memory :
    encode ⟨.add .memory .memory, [0x01, 0x00, 0x02, 0x00]⟩ = [0xBF, 0x01, 0x00, 0x02, 0x00] := by decide

theorem test_decodeTableWord :
    decodeTableWord 8 0xBF = some (.add .memory .memory) ∧ decodeTableWord 8 0x0D = some .loadMarImm ∧
      decodeTableWord 8 0x17 = none := by decide

/-! ### WellFormed: ill-formed terms the check refuses -/

theorem test_wellFormed_refuses_missing_operand_byte : (Coded.mk .loadMarImm [0x12]).wellFormed = false := by decide
theorem test_wellFormed_refuses_extra_operand_byte : (Coded.mk .loadAccImm [0x12, 0x34]).wellFormed = false := by decide
theorem test_wellFormed_refuses_operand_of_nop : (Coded.mk .nop [0x00]).wellFormed = false := by decide
theorem test_wellFormed_refuses_one_address_for_two_memory_targets :
    (Coded.mk (.add .memory .memory) [0x01, 0x00]).wellFormed = false := by decide
theorem test_wellFormed_accepts : (Coded.mk (.add .memory .memory) [0x01, 0x00, 0x02, 0x00]).wellFormed = true := by decide
theorem test_decodeStream_refuses_truncated : decodeStream [0xBF, 0x01, 0x00] = .truncated (.add .memory .memory) := by decide

/-! ### Single steps -/

/-- The start state of 95_test_vectors.md section 2.2 with `bytes` at address 0. -/
def start (bytes : List Byte) : State where
  acc      := 0x5A
  mar      := 0x0200
  ir       := 0x00
  pc       := 0x0000
  runstate := .running
  fault    := none
  mem      := writeBytes (writeBytes (writeBytes [] 0x0200 [0xC3, 0x0F]) 0x0300 [0x12, 0xF0]) 0x0000 bytes

/-- The state after one step, if there is one. -/
def after (s : State) : Option State :=
  match step s with
  | .next t => some t
  | .fault _ => none
  | .refused _ => none

/-- ACC, MAR, PC and the bytes at the listed addresses after one step. -/
def seen (s : State) (addrs : List Word) : Option (Byte × Word × Word × List Byte) :=
  (after s).map fun t => (t.acc, t.mar, t.pc, addrs.map (readByte t.mem))

-- section 2.2
theorem test_and_word_into_byte :
    seen (start [0x83, 0x03, 0x00]) [0x0200, 0x0201] = some (0x5A, 0x0200, 0x0003, [0xC0, 0x0F]) := by decide
theorem test_and_byte_into_word :
    seen (start [0x8D, 0x02, 0x00]) [0x0200, 0x0201] = some (0x5A, 0x0200, 0x0003, [0x00, 0x0A]) := by decide
theorem test_or_memory_memory :
    seen (start [0x9F, 0x03, 0x00, 0x02, 0x00]) [0x0200, 0x0201] = some (0x5A, 0x0200, 0x0005, [0xD3, 0xFF]) := by decide
theorem test_or_mar_acc : seen (start [0x96]) [] = some (0x5A, 0x0200, 0x0001, []) := by decide
theorem test_xor_clears_mar : seen (start [0xAA]) [] = some (0x5A, 0x0000, 0x0001, []) := by decide
theorem test_xor_memory_acc : seen (start [0xA7, 0x03, 0x00]) [] = some (0xAA, 0x0200, 0x0003, []) := by decide
theorem test_add_indirect_acc_wraps : seen (start [0xB4]) [] = some (0x1D, 0x0200, 0x0001, []) := by decide
theorem test_sub_is_src_minus_dst : seen (start [0xC9]) [] = some (0x5A, 0xFE5A, 0x0001, []) := by decide
theorem test_sub_mar_acc : seen (start [0xC6]) [] = some (0xA6, 0x0200, 0x0001, []) := by decide
theorem test_inc_acts_on_src : seen (start [0xD8]) [] = some (0x5A, 0x00C4, 0x0001, []) := by decide
theorem test_inc_memory_memory :
    seen (start [0xDF, 0x03, 0x00, 0x02, 0x00]) [0x0200, 0x0201] = some (0x5A, 0x0200, 0x0005, [0x12, 0xF1]) := by decide
theorem test_dec_mar_into_byte :
    seen (start [0xE2]) [0x0200, 0x0201] = some (0x5A, 0x0200, 0x0001, [0xFF, 0x0F]) := by decide
theorem test_dec_memory_mar : seen (start [0xEB, 0x03, 0x00]) [] = some (0x5A, 0x12EF, 0x0003, []) := by decide
theorem test_not_byte_into_word_sets_high_byte : seen (start [0xF9]) [] = some (0x5A, 0xFFA5, 0x0001, []) := by decide
theorem test_not_indirect_memory :
    seen (start [0xFC, 0x02, 0x00]) [0x0200, 0x0201] = some (0x5A, 0x0200, 0x0003, [0xFF, 0x3C]) := by decide

/-- Section 2.3: the word at 0xFFFF is the bytes at 0xFFFF and 0x0000; the write overwrites the opcode byte. -/
theorem test_add_mar_memory_wraps_over_the_opcode :
    (let s := start [0xBE, 0xFF, 0xFF]
     seen { s with mar := 0x0102, mem := writeByte s.mem 0xFFFF 0x01 } [0xFFFF, 0x0000]) =
      some (0x5A, 0x0102, 0x0003, [0x02, 0xC0]) := by decide

/-- Section 2.4: the two tables for the other parameter values (rows C8 and FC). -/
theorem test_other_parameter_values :
    (mathResult ⟨.dstMinusSrc, .zero, .mod65536⟩ .sub .indirect .mar (start [])).mar = 0x013D ∧
    (mathResult ⟨.srcMinusDst, .sign, .mod65536⟩ .not .indirect .mar (start [])).mar = 0x003C := by decide

-- section 2.5
theorem test_loadAccAddr : seen (start [0x08, 0x03, 0x00]) [] = some (0x12, 0x0200, 0x0003, []) := by decide
theorem test_loadAccImm : seen (start [0x09, 0xA7]) [] = some (0xA7, 0x0200, 0x0002, []) := by decide
theorem test_loadAccInd : seen (start [0x0A]) [] = some (0xC3, 0x0200, 0x0001, []) := by decide
theorem test_loadMarAddr_wraps :
    (let s := start [0x0C, 0xFF, 0xFF]
     seen { s with mem := writeByte s.mem 0xFFFF 0x7A } []) = some (0x5A, 0x7A0C, 0x0003, []) := by decide
theorem test_loadMarImm : seen (start [0x0D, 0xA7, 0x11]) [] = some (0x5A, 0xA711, 0x0003, []) := by decide
theorem test_loadMarInd : seen (start [0x0E]) [] = some (0x5A, 0xC30F, 0x0001, []) := by decide
theorem test_loadMarImm_straddles_the_top :
    seen { start [0x22] with pc := 0xFFFE, mem := writeBytes [] 0xFFFE [0x0D, 0x11, 0x22] } [] =
      some (0x5A, 0x1122, 0x0001, []) := by decide

-- section 2.6
theorem test_storeAccAddr :
    seen (start [0x00, 0x03, 0x00]) [0x0300, 0x0301] = some (0x5A, 0x0200, 0x0003, [0x5A, 0xF0]) := by decide
theorem test_storeCAccAddr :
    seen (start [0x01, 0x03, 0x00]) [0x0300, 0x0301] = some (0x5A, 0x0200, 0x0003, [0x5A, 0xF0]) := by decide
theorem test_storeAccInd : seen (start [0x02]) [0x0200, 0x0201] = some (0x5A, 0x0200, 0x0001, [0x5A, 0x0F]) := by decide
theorem test_storeMarAddr :
    seen (start [0x04, 0x03, 0x00]) [0x0300, 0x0301] = some (0x5A, 0x0200, 0x0003, [0x02, 0x00]) := by decide
theorem test_storeCMarAddr :
    seen (start [0x05, 0x03, 0x00]) [0x0300, 0x0301] = some (0x5A, 0x0200, 0x0003, [0x02, 0x00]) := by decide
theorem test_storeMarInd_wraps :
    seen { start [0x06] with mar := 0xFFFF } [0xFFFF, 0x0000] = some (0x5A, 0xFFFF, 0x0001, [0xFF, 0xFF]) := by decide

/-- Section 2.7: PC after `1k 12 34` at 0x0010 with ACC = `a`. -/
def branchPc (op a : Byte) : Option Word :=
  (after { start [] with acc := a, pc := 0x0010, mem := writeBytes [] 0x0010 [op, 0x12, 0x34] }).map State.pc

def branchRow (op : Byte) : List (Option Word) := [0x00, 0x01, 0x7F, 0x80, 0xFF].map (branchPc op)

theorem test_bra : branchRow 0x10 = [0x1234, 0x1234, 0x1234, 0x1234, 0x1234].map some := by decide
theorem test_brz : branchRow 0x11 = [0x1234, 0x0013, 0x0013, 0x0013, 0x0013].map some := by decide
theorem test_bne : branchRow 0x12 = [0x0013, 0x1234, 0x1234, 0x1234, 0x1234].map some := by decide
theorem test_blt : branchRow 0x13 = [0x0013, 0x0013, 0x0013, 0x1234, 0x1234].map some := by decide
theorem test_ble : branchRow 0x14 = [0x1234, 0x0013, 0x0013, 0x1234, 0x1234].map some := by decide
theorem test_bgt : branchRow 0x15 = [0x0013, 0x1234, 0x1234, 0x0013, 0x0013].map some := by decide
theorem test_bge : branchRow 0x16 = [0x1234, 0x1234, 0x1234, 0x0013, 0x0013].map some := by decide

-- section 2.8
theorem test_nop : after (start [0x18]) = some { start [0x18] with ir := 0x18, pc := 0x0001 } := by decide
theorem test_hault :
    after (start [0x1C]) = some { start [0x1C] with ir := 0x1C, pc := 0x0001, runstate := .halted } := by decide
theorem test_illegal_at_the_top :
    after { start [] with pc := 0xFFFF, mem := [(0xFFFF, 0x7F)] } =
      some { start [] with
        pc := 0x0000, ir := 0x7F, runstate := .faulted, fault := some ⟨0x7F, 0x0000⟩, mem := [(0xFFFF, 0x7F)] } := by decide

/-- R27 with ADDR_WRAP = refuse: no cycle at PC = 0xFFFF (program P5). -/
theorem test_refuse_at_the_top : crossesTop { State.reset with pc := 0xFFFF } = true := by decide

theorem test_withFetchWord : after (State.reset.withFetchWord 8 0x1C) =
    some { State.reset with ir := 0x1C, pc := 0x0001, runstate := .halted, mem := [(0, 0x1C)] } := by decide

/-- The document's example S6: `LOAD ACC, #5; HAULT` ends Halted with ACC = 5 and PC = 3. -/
def s6Final : State := { State.reset.setMem [(0, 0x09), (1, 0x05), (2, 0x1C)] with
  acc := 0x05, ir := 0x1C, pc := 0x0003, runstate := .halted }

theorem test_run_S6 : runWithin 2 (State.reset.setMem [(0, 0x09), (1, 0x05), (2, 0x1C)]) = .ended .halted s6Final := by
  decide

/-! ### Witnesses: the hypotheses of the statements are met -/

/-- A Running state about to run the opcode `b`. -/
def aboutTo (b : Byte) : State := start [b]

/-- The hypotheses `Running` and `opcode = b` of the Load, Store, Branch, NOP and HAULT statements. -/
theorem witness_running_at_each_opcode :
    ∀ b ∈ [0x00, 0x01, 0x02, 0x04, 0x05, 0x06, 0x08, 0x09, 0x0A, 0x0C, 0x0D, 0x0E, 0x10, 0x11, 0x12, 0x13, 0x14, 0x15,
      0x16, 0x18, 0x1C], (aboutTo b).runstate = .running ∧ (aboutTo b).opcode = b := by decide

theorem witness_NopOnlyAdvances : (aboutTo 0x18).opcode = 0x18 ∧ (aboutTo 0x18).pc ≠ 0xFFFF := by decide
theorem witness_HaultEndsTheRun : (aboutTo 0x1C).opcode = 0x1C ∧ (aboutTo 0x1C).pc ≠ 0xFFFF := by decide

theorem witness_IllegalBytesAreExactlyTheListed107 :
    (aboutTo 0x7F).runstate = .running ∧ listedIllegal (aboutTo 0x7F).opcode = true ∧ exec .nop (aboutTo 0x18) = .next (aboutTo 0x18) :=
  ⟨by decide, by decide, rfl⟩

/-- The four clauses at the ends of their ranges; 0x17 and 0x18 fall under none of the first three. -/
theorem witness_DecodedFieldsGiveTheByteBack :
    (0x80 : Nat) ≤ (0x80#8).toNat ∧ (0x80 : Nat) ≤ (0xFF#8).toNat ∧
    (0x0E#8).toNat < 0x10 ∧ listedIllegal 0x0E = false ∧ listedIllegal 0x00 = false ∧
    (0x10 : Nat) ≤ (0x10#8).toNat ∧ (0x16#8).toNat < 0x17 ∧ decodeOpcode 0x1C = .ok .hault := by decide

theorem witness_DecodeOfEncodeIsTheInstruction :
    (Coded.mk (.add .memory .memory) [0xFF, 0xFF, 0x00, 0x00]).wellFormed = true ∧ (Coded.mk .nop []).wellFormed = true := by
  decide

theorem witness_EncodeOfDecodeIsTheBytes : decodeStream [0x09, 0x05, 0x1C] = .ok ⟨.loadAccImm, [0x05]⟩ [0x1C] := by decide

theorem witness_LengthIsDecidedByTheOpcodeByte :
    decodeStream [0xBF, 0x01, 0x00, 0x02, 0x00] = .ok ⟨.add .memory .memory, [0x01, 0x00, 0x02, 0x00]⟩ [] := by decide

theorem witness_ByteWriteSetsOneByte : (0x0001 : Word) ≠ 0x0000 := by decide
theorem witness_WordAccessesSeePlainBytes : (0x0001 : Word) ≠ 0xFFFF ∧ (0x0001 : Word) ≠ 0xFFFF + 1 := by decide

theorem witness_CanonicalMemoriesThatReadAlikeAreEqual :
    Memory.wf [(5, 0x01)] = true ∧ Memory.wf (writeByte [(5, 0x02)] 5 0x01) = true ∧
      ∀ a : Word, readByte [(5, 0x01)] a = readByte (writeByte [(5, 0x02)] 5 0x01) a :=
  ⟨by decide, by decide, fun _ => rfl⟩

theorem witness_WritingTheValuePresentChangesNothing : Memory.wf [(0, 0x01), (0xFFFF, 0xFF)] = true := by decide
theorem witness_FetchesReadTheStreamAndAdvancePc : ({ State.reset with pc := 0xFFFF } : State).pc = 0xFFFF := rfl

theorem witness_EveryStepLeavesTheOpcodeInIr :
    (aboutTo 0x18).pc ≠ 0xFFFF ∧ step (aboutTo 0x18) = .next { aboutTo 0x18 with ir := 0x18, pc := 0x0001 } :=
  ⟨by decide, rfl⟩

theorem witness_StepRunsTheDecodedInstruction :
    (start [0x09, 0x05]).runstate = .running ∧
    decodeOpcode (fetchOpcode (start [0x09, 0x05])).ir = .ok .loadAccImm ∧
    decodeOpcode (fetchOpcode (aboutTo 0x7F)).ir = .illegal 0x7F ∧
    (Coded.mk .loadAccImm [0x05]).wellFormed = true ∧
    ∀ k (h : k < (encode ⟨.loadAccImm, [0x05]⟩).length),
      readByte (start [0x09, 0x05]).mem ((start [0x09, 0x05]).pc + BitVec.ofNat 16 k) =
        (encode ⟨.loadAccImm, [0x05]⟩)[k] := by decide

theorem witness_EveryCycleCompletesWithAtMostOneWrite :
    (aboutTo 0x7F).runstate = .running ∧ decodeOpcode (aboutTo 0x7F).opcode = .illegal 0x7F ∧
    decodeOpcode (aboutTo 0x18).opcode = .ok .nop ∧ writtenPlace .nop (fetchOpcode (aboutTo 0x18)) = none ∧
    decodeOpcode (aboutTo 0x06).opcode = .ok .storeMarInd ∧
    writtenPlace .storeMarInd (fetchOpcode (aboutTo 0x06)) = some (.wordAt 0x0200) := by decide

theorem witness_OnlyTheWrittenRegisterChanges :
    (after (aboutTo 0x0A)).map (fun t => (t.acc != (aboutTo 0x0A).acc)) = some true ∧
    (after (aboutTo 0x0E)).map (fun t => (t.mar != (aboutTo 0x0E).mar)) = some true := by decide

theorem witness_PcAfterAStep :
    (after (aboutTo 0x10)).isSome = true ∧ decodeOpcode (aboutTo 0x10).opcode = .ok .bra ∧ branchKind .bra = some .bra ∧
    taken .bra (aboutTo 0x10).acc = true ∧
    (after (aboutTo 0x11)).isSome = true ∧ decodeOpcode (aboutTo 0x11).opcode = .ok .brz ∧ branchKind .brz = some .brz ∧
    taken .brz (aboutTo 0x11).acc = false := by decide

/-- A step from each kind of state that has one: HAULT, an illegal opcode, anything else. -/
theorem witness_RunstateMovesOnlyOnHaultOrIllegalOpcode :
    (after (aboutTo 0x1C)).map State.runstate = some .halted ∧ (after (aboutTo 0x7F)).map State.runstate = some .faulted ∧
    (after (aboutTo 0x00)).map State.runstate = some .running := by decide

theorem witness_FaultRecordIsWrittenOnlyByIllegalOpcode :
    (after (aboutTo 0x20)).isSome = true ∧ listedIllegal (aboutTo 0x20).opcode = true ∧
    (after (aboutTo 0x80)).isSome = true ∧ listedIllegal (aboutTo 0x80).opcode = false := by decide

theorem witness_IllegalOpcodeIsTakenPrecisely :
    (aboutTo 0x17).runstate = .running ∧ decodeOpcode (aboutTo 0x17).opcode = .illegal 0x17 := by decide

theorem witness_NoStepAfterTheRunHasEnded :
    (s6Final).runstate = .halted ∧ (s6Final).runstate ≠ .running ∧
    (raiseIllegalOpcode 0x7F 0x0001 (fetchOpcode (aboutTo 0x7F))).runstate = .faulted ∧
    (raiseIllegalOpcode 0x7F 0x0001 (fetchOpcode (aboutTo 0x7F))).fault = some ⟨0x7F, 0x0001⟩ := by decide

theorem witness_EveryStepKeepsTheStateConsistent :
    (aboutTo 0x7F).inv = true ∧ (after (aboutTo 0x7F)).isSome = true ∧ (aboutTo 0x06).inv = true ∧ (after (aboutTo 0x06)).isSome = true := by
  decide

theorem witness_ResetStateIsConsistent : construct [0x1C] = .next (State.reset.setMem [(0, 0x1C)]) := rfl

theorem witness_StoredCodeIsFetchedByTheNextStep :
    (let s := { aboutTo 0x02 with acc := 0x1C, mar := 0x0001 }
     s.runstate = .running ∧ s.opcode = 0x02 ∧ s.mar = s.pc + 1 ∧ decodeOpcode s.acc = .ok .hault) ∧
    (let s := { aboutTo 0x02 with acc := 0x7F, mar := 0x0001 }
     s.opcode = 0x02 ∧ s.mar = s.pc + 1 ∧ decodeOpcode s.acc = .illegal 0x7F) := by decide

/-- A STORE MAR, [MAR] that `refuse` lets run, and the two ways to cross the top: a PC at 0xFFFF, and a LOAD MAR, [MAR]
that reads the word at 0xFFFF. -/
theorem witness_RefuseSettingNeverWraps :
    ({ State.reset with pc := 0xFFFF } : State).runstate = .running ∧ crossesTop { State.reset with pc := 0xFFFF } = true ∧
    crossesTop (aboutTo 0x06) = false ∧ decodeOpcode (aboutTo 0x06).opcode = .ok .storeMarInd ∧
    0x0200 ∈ wordAccesses .storeMarInd (fetchOpcode (aboutTo 0x06)) ∧
    writtenPlace .storeMarInd (fetchOpcode (aboutTo 0x06)) = some (.wordAt 0x0200) ∧
    crossesTop { aboutTo 0x0E with mar := 0xFFFF } = true ∧ crossesTop { aboutTo 0x0E with mar := 0xFFFE } = false := by
  decide

theorem witness_RefuseSettingNeverWraps_next : ∃ t, cycleUnder .refuse (aboutTo 0x06) = .next t := ⟨_, rfl⟩

theorem witness_ConstructionPlacesTheImage :
    ([] : List Byte).length ≤ 65536 ∧ (List.replicate 65536 (0xFF : Byte)).length ≤ 65536 ∧
      step (State.reset.setMem [(0, 0x1C)]) = .next { State.reset.setMem [(0, 0x1C)] with
        ir := 0x1C, pc := 0x0001, runstate := .halted } :=
  ⟨by simp, by simp only [List.length_replicate]; omega, rfl⟩

theorem witness_ResetValuesAndOversizeImage :
    construct [] = .next State.reset ∧ 65536 < (List.replicate 65537 (0xFF : Byte)).length :=
  ⟨rfl, by simp only [List.length_replicate]; omega⟩

theorem witness_RunReturnsWhenTheStateHasEnded :
    State.reset.inv = true ∧ runWithin 1 (aboutTo 0x1C) = .ended .halted { aboutTo 0x1C with ir := 0x1C, pc := 0x0001, runstate := .halted } := by decide

theorem witness_WideningShowsOnlyFromByteToWord :
    ¬ (byteTarget .mar = true ∧ byteTarget .memory = false) ∧ ¬ (byteTarget .acc = true ∧ byteTarget .indirect = false) ∧
    byteTarget .indirect = true ∧ byteTarget .acc = true ∧ byteTarget .mar = false ∧ byteTarget .memory = false := by decide

theorem witness_WriteBackIsAtTheWidthOfTheDst :
    (0x0001 : Word) ≠ 0xFFFF ∧ (0x0001 : Word) ≠ addrSucc 0xFFFF := by decide

theorem witness_IncWritesSrcPlusOne :
    (let s := start [0x02, 0x00, 0x02, 0x00]
     (fetchWord (fetchWord s).2).1 = (fetchWord s).1) := by decide

theorem witness_MathematicalCycleChangesOnlyItsDst :
    ∀ src ∈ [Target.indirect, .acc, .mar, .memory], ∀ dst ∈ [Target.indirect, .acc, .mar, .memory],
      (aboutTo (mathOpcode .add src dst)).runstate = .running ∧
      decodeOpcode (aboutTo (mathOpcode .add src dst)).opcode = .ok (mathInstr .add src dst) := by decide

theorem witness_LoadCycleChangesOnlyItsRegister :
    (aboutTo 0x08).runstate = .running ∧ decodeOpcode (aboutTo 0x08).opcode = .ok (loadInstr .acc .address) ∧
    decodeOpcode (aboutTo 0x0E).opcode = .ok (loadInstr .mar .indirect) := by decide

theorem witness_StoreMarCompletes : (0x0001 : Word) ≠ (fetchWord (start [0xFF, 0xFF])).1 ∧
    (0x0001 : Word) ≠ (fetchWord (start [0xFF, 0xFF])).1 + 1 := by decide

theorem witness_StoreOverItsOwnBytesExecutesAsFetched :
    (let s := start [0x00, 0x00, 0x01]
     s.runstate = .running ∧ s.opcode = 0x00 ∧ readWord s.mem (s.pc + 1) = s.pc + 1) := by decide

theorem witness_BranchCycleOutcome :
    (aboutTo 0x16).runstate = .running ∧ decodeOpcode (aboutTo 0x16).opcode = .ok (branchInstr .bge) := by decide

/-- A state whose operand address is 0xFFFF, the boundary of the statements about a word at the fetched address. -/
theorem witness_operand_address_at_the_top : (fetchWord (start [0xFF, 0xFF])).1 = 0xFFFF ∧
    addrSucc (fetchWord (start [0xFF, 0xFF])).1 = 0x0000 := by decide

end Sys2Proof.Tests
end

namespace Sys2Proof.Machine

/-! ### Memory (spec/20_memory.md) -/

/-- Settles O8: the two memory clauses are the read-after-write laws at the written and at any other address; the
register clauses are the frame of `setMem`. -/
theorem byteWriteSetsOneByte : Obligations.ByteWriteSetsOneByte := by
  intro s a v
  exact ⟨readByte_writeByte_self s.mem a v, fun _ hb => readByte_writeByte_other s.mem v hb,
    s.setMem_acc _, s.setMem_mar _, s.setMem_ir _, s.setMem_pc _⟩

end Sys2Proof.Machine

namespace Sys2Proof.Machine

/-! ### Encoding and decoding (spec/30_encoding.md) -/

/-! The code tables are each other's inverse, R73 to R79. -/

@[simp] theorem codeOfMathFunc_mathFuncOfCode (c : BitVec 3) : codeOfMathFunc (mathFuncOfCode c) = c.toNat := by
  revert c; decide

@[simp] theorem codeOfTarget_targetOfCode (c : BitVec 2) : codeOfTarget (targetOfCode c) = c.toNat := by
  revert c; decide

@[simp] theorem codeOfReg_regOfCode (c : BitVec 1) : codeOfReg (regOfCode c) = c.toNat := by
  revert c; decide

theorem codeOfMethod_of_methodOfCode {c : BitVec 2} {m : Method} (h : methodOfCode c = some m) :
    codeOfMethod m = c.toNat := by
  revert c; cases m <;> decide

theorem toNat_of_methodOfCode_none {c : BitVec 2} (h : methodOfCode c = none) : c.toNat = 3 := by
  revert c; decide

theorem codeOfBranch_of_branchOfCode {c : BitVec 3} {k : BranchKind} (h : branchOfCode c = some k) :
    codeOfBranch k = c.toNat := by
  revert c; cases k <;> decide

theorem toNat_of_branchOfCode_none {c : BitVec 3} (h : branchOfCode c = none) : c.toNat = 7 := by
  revert c; decide

/-! The bounds of the codes: each code fits its field. -/

theorem codeOfMathFunc_lt (f : MathFunc) : codeOfMathFunc f < 8 := by cases f <;> decide
theorem codeOfTarget_lt (t : Target) : codeOfTarget t < 4 := by cases t <;> decide
theorem codeOfReg_lt (r : Reg) : codeOfReg r < 2 := by cases r <;> decide
theorem codeOfMethod_lt (m : Method) : codeOfMethod m < 3 := by cases m <;> decide
theorem codeOfBranch_lt (k : BranchKind) : codeOfBranch k < 7 := by cases k <;> decide

/-! The opcode byte of each variant as a number, R72, R75, R78. -/

theorem toNat_opcodeOf_mathInstr (f : MathFunc) (src dst : Target) :
    (opcodeOf (mathInstr f src dst)).toNat =
      0x80 + codeOfMathFunc f * 16 + codeOfTarget dst * 4 + codeOfTarget src := by
  have hop : opcodeOf (mathInstr f src dst) = mathOpcode f src dst := by cases f <;> rfl
  have hf := codeOfMathFunc_lt f
  have hs := codeOfTarget_lt src
  have hd := codeOfTarget_lt dst
  rw [hop, mathOpcode, BitVec.toNat_ofNat]
  omega

theorem toNat_opcodeOf_loadInstr (r : Reg) (m : Method) :
    (opcodeOf (loadInstr r m)).toNat = 1 * 8 + codeOfReg r * 4 + codeOfMethod m := by
  cases r <;> cases m <;> rfl

theorem toNat_opcodeOf_storeInstr (r : Reg) (m : Method) :
    (opcodeOf (storeInstr r m)).toNat = 0 * 8 + codeOfReg r * 4 + codeOfMethod m := by
  cases r <;> cases m <;> rfl

theorem toNat_opcodeOf_branchInstr (k : BranchKind) :
    (opcodeOf (branchInstr k)).toNat = 0x10 + codeOfBranch k := by
  cases k <;> rfl

/-! The fields of a byte and the list of R82 as arithmetic on its value. -/

theorem toNat_field (b : Byte) (lo len : Nat) : (field b lo len).toNat = b.toNat / 2 ^ lo % 2 ^ len := by
  simp [field, Nat.shiftRight_eq_div_pow]

/-- A field holds the code `c` exactly if the bits, read as a number, are `c`. -/
theorem field_eq_iff (b : Byte) (lo len : Nat) (c : BitVec len) :
    field b lo len = c ↔ b.toNat / 2 ^ lo % 2 ^ len = c.toNat := by
  rw [← toNat_field, BitVec.toNat_inj]

theorem listedIllegal_iff (b : Byte) :
    listedIllegal b = true ↔
      (b.toNat < 0x10 ∧ b.toNat % 4 = 3) ∨
      (0x17 ≤ b.toNat ∧ b.toNat < 0x80 ∧ b.toNat ≠ 0x18 ∧ b.toNat ≠ 0x1C) := by
  simp only [listedIllegal, List.mem_cons, List.not_mem_nil, or_false, Bool.or_eq_true, Bool.and_eq_true,
    decide_eq_true_eq, ← BitVec.toNat_inj, BitVec.reduceToNat]
  omega

/-- Everything the decoder can answer (R80): `Illegal` for a listed byte, or for an unlisted byte the instruction whose
opcode byte it is. -/
theorem decodeOpcode_cases (b : Byte) :
    (decodeOpcode b = .illegal b ∧ listedIllegal b = true) ∨
      ∃ i, decodeOpcode b = .ok i ∧ opcodeOf i = b ∧ ¬ listedIllegal b = true := by
  have hb : b.toNat < 256 := b.isLt
  simp only [listedIllegal_iff, ← BitVec.toNat_inj (x := opcodeOf _)]
  unfold decodeOpcode
  simp only [field_eq_iff b 7 1, field_eq_iff b 4 4, field_eq_iff b 3 5, field_eq_iff b 3 1,
    ← BitVec.toNat_inj (x := b), BitVec.reduceToNat]
  split
  case isTrue hmath =>
    refine .inr ⟨_, rfl, ?_⟩
    simp only [toNat_opcodeOf_mathInstr, codeOfMathFunc_mathFuncOfCode, codeOfTarget_targetOfCode, toNat_field]
    omega
  case isFalse hmath =>
  split
  case isTrue hloadStore =>
    split
    case h_1 hm =>
      have h3 := toNat_of_methodOfCode_none hm
      rw [toNat_field] at h3
      exact .inl ⟨rfl, by omega⟩
    case h_2 m hm =>
      have hcode := codeOfMethod_of_methodOfCode hm
      have hlt := codeOfMethod_lt m
      rw [toNat_field] at hcode
      split
      case isTrue hload =>
        refine .inr ⟨_, rfl, ?_⟩
        simp only [toNat_opcodeOf_loadInstr, codeOfReg_regOfCode, toNat_field]
        omega
      case isFalse hstore =>
        refine .inr ⟨_, rfl, ?_⟩
        simp only [toNat_opcodeOf_storeInstr, codeOfReg_regOfCode, toNat_field]
        omega
  case isFalse hloadStore =>
  split
  case isTrue hbranch =>
    split
    case h_1 hk =>
      have h7 := toNat_of_branchOfCode_none hk
      rw [toNat_field] at h7
      exact .inl ⟨rfl, by omega⟩
    case h_2 k hk =>
      have hcode := codeOfBranch_of_branchOfCode hk
      have hlt := codeOfBranch_lt k
      rw [toNat_field] at hcode
      refine .inr ⟨_, rfl, ?_⟩
      rw [toNat_opcodeOf_branchInstr]
      omega
  case isFalse hbranch =>
  split
  case isTrue hnop => exact .inr ⟨.nop, rfl, hnop.symm, by omega⟩
  case isFalse hnop =>
  split
  case isTrue hhault => exact .inr ⟨.hault, rfl, hhault.symm, by omega⟩
  case isFalse hhault => exact .inl ⟨rfl, by omega⟩

/-- R86 for every class: the opcode byte of a decoded instruction is the byte it was decoded from. -/
theorem opcodeOf_of_decodeOpcode {b : Byte} {i : Instr} (h : decodeOpcode b = .ok i) : opcodeOf i = b := by
  obtain ⟨hill, -⟩ | ⟨j, hj, hop, -⟩ := decodeOpcode_cases b
  · rw [hill] at h; cases h
  · rw [hj] at h; cases h; exact hop

theorem decodeOpcode_illegal_iff (b : Byte) : decodeOpcode b = .illegal b ↔ listedIllegal b = true := by
  obtain ⟨hill, hlisted⟩ | ⟨i, hi, -, hlisted⟩ := decodeOpcode_cases b
  · simp [hill, hlisted]
  · simp [hi, hlisted]

/-- A byte off the list decodes, to the instruction whose opcode byte it is. -/
theorem decodeOpcode_of_not_listed {b : Byte} (h : ¬ listedIllegal b = true) :
    ∃ i, decodeOpcode b = .ok i ∧ opcodeOf i = b := by
  obtain ⟨-, hlisted⟩ | ⟨i, hi, hop, -⟩ := decodeOpcode_cases b
  · exact absurd hlisted h
  · exact ⟨i, hi, hop⟩

/-- No instruction writes the fault record. -/
theorem exec_fault {i : Instr} {s t : State} (h : exec i s = .next t) : t.fault = s.fault := by
  obtain ⟨f, src, dst, rfl⟩ | ⟨r, m, rfl⟩ | ⟨r, m, rfl⟩ | ⟨k, rfl⟩ | rfl | rfl := instr_variants i
  · rw [exec_mathInstr] at h
    cases h
    obtain ⟨-, -, -, hfault⟩ := mathResult_frame s config f src dst
    exact hfault
  · obtain ⟨u, hu, -, -, hfault, -⟩ := execLoad_next s r m
    rw [exec_loadInstr, hu] at h
    cases h
    exact hfault
  · obtain ⟨u, hu, -, -, -, -, hfault, -⟩ := execStore_next s r m
    rw [exec_storeInstr, hu] at h
    cases h
    exact hfault
  · rw [exec_branchInstr, execBranch_eq] at h
    cases h
    rfl
  · cases h; rfl
  · cases h; rfl

/-- R82's count, over all 256 bytes. -/
theorem listedIllegal_count : ((List.range 256).filter fun n => listedIllegal (BitVec.ofNat 8 n)).length = 107 := by
  rfl

/-- Settles O3: the decoder answers `Illegal` exactly on the list, the cycle of such a byte takes the exception, and no
instruction's meaning writes the fault record. -/
theorem illegalBytesAreExactlyTheListed107 : Obligations.IllegalBytesAreExactlyTheListed107 := by
  refine ⟨decodeOpcode_illegal_iff, listedIllegal_count, fun s hrun hlisted => ?_, fun _ _ _ => exec_fault⟩
  have hdec := (decodeOpcode_illegal_iff s.opcode).mpr hlisted
  exact ⟨_, (step_running hrun).trans (cycle_illegal hdec), rfl, rfl⟩

/-- An opcode without operand bytes is the whole instruction. -/
theorem decodeStream_of_operandBytes_zero {b : Byte} {i : Instr} (rest : List Byte) (h : decodeOpcode b = .ok i)
    (h0 : operandBytes i = 0) : decodeStream (b :: rest) = .ok ⟨i, []⟩ rest := by
  simp [decodeStream, h, h0]

/-- Settles O2: the exact bytes by R86, the empty operands because neither opcode takes any. -/
theorem nopAndHaultAreExactBytes : Obligations.NopAndHaultAreExactBytes := by
  have hnop : decodeOpcode 0b00011000 = .ok .nop := Laws.RoundTrip.nop
  have hhault : decodeOpcode 0b00011100 = .ok .hault := Laws.RoundTrip.hault
  refine ⟨fun b => ⟨fun h => (opcodeOf_of_decodeOpcode h).symm, fun h => h ▸ hnop⟩,
    fun b => ⟨fun h => (opcodeOf_of_decodeOpcode h).symm, fun h => h ▸ hhault⟩, fun rest => ⟨?_, ?_⟩⟩
  · exact decodeStream_of_operandBytes_zero rest hnop rfl
  · exact decodeStream_of_operandBytes_zero rest hhault rfl

/-- The variants have disjoint ranges of opcode bytes (R71), so the range a legal byte lies in names its variant. -/
theorem opcodeOf_range (i : Instr) :
    (0x80 ≤ (opcodeOf i).toNat ∧ ∃ f src dst, i = mathInstr f src dst) ∨
      ((opcodeOf i).toNat < 0x10 ∧ ((∃ r m, i = loadInstr r m) ∨ ∃ r m, i = storeInstr r m)) ∨
      (0x10 ≤ (opcodeOf i).toNat ∧ (opcodeOf i).toNat < 0x17 ∧ ∃ k, i = branchInstr k) ∨
      (0x18 ≤ (opcodeOf i).toNat ∧ (opcodeOf i).toNat < 0x80) := by
  obtain ⟨f, src, dst, rfl⟩ | ⟨r, m, rfl⟩ | ⟨r, m, rfl⟩ | ⟨k, rfl⟩ | rfl | rfl := instr_variants i
  · rw [toNat_opcodeOf_mathInstr]
    exact .inl ⟨by omega, f, src, dst, rfl⟩
  · have hr := codeOfReg_lt r
    have hm := codeOfMethod_lt m
    rw [toNat_opcodeOf_loadInstr]
    exact .inr (.inl ⟨by omega, .inl ⟨r, m, rfl⟩⟩)
  · have hr := codeOfReg_lt r
    have hm := codeOfMethod_lt m
    rw [toNat_opcodeOf_storeInstr]
    exact .inr (.inl ⟨by omega, .inr ⟨r, m, rfl⟩⟩)
  · have hk := codeOfBranch_lt k
    rw [toNat_opcodeOf_branchInstr]
    exact .inr (.inr (.inl ⟨by omega, by omega, k, rfl⟩))
  · exact .inr (.inr (.inr (by decide)))
  · exact .inr (.inr (.inr (by decide)))

theorem decodeOpcode_math {b : Byte} (h : 0x80 ≤ b.toNat) :
    ∃ f src dst, decodeOpcode b = .ok (mathInstr f src dst) ∧
      0x80 + codeOfMathFunc f * 16 + codeOfTarget dst * 4 + codeOfTarget src = b.toNat := by
  obtain ⟨i, hdec, rfl⟩ := decodeOpcode_of_not_listed (b := b) (by rw [listedIllegal_iff]; omega)
  obtain ⟨-, f, src, dst, rfl⟩ | hother := opcodeOf_range i
  · exact ⟨f, src, dst, hdec, (toNat_opcodeOf_mathInstr f src dst).symm⟩
  · omega

theorem decodeOpcode_loadStore {b : Byte} (h : b.toNat < 0x10) (hlegal : ¬ listedIllegal b = true) :
    (∃ r m, decodeOpcode b = .ok (loadInstr r m) ∧ 1 * 8 + codeOfReg r * 4 + codeOfMethod m = b.toNat) ∨
      (∃ r m, decodeOpcode b = .ok (storeInstr r m) ∧ 0 * 8 + codeOfReg r * 4 + codeOfMethod m = b.toNat) := by
  obtain ⟨i, hdec, rfl⟩ := decodeOpcode_of_not_listed hlegal
  obtain hmath | ⟨-, ⟨r, m, rfl⟩ | ⟨r, m, rfl⟩⟩ | hother := opcodeOf_range i
  · omega
  · exact .inl ⟨r, m, hdec, (toNat_opcodeOf_loadInstr r m).symm⟩
  · exact .inr ⟨r, m, hdec, (toNat_opcodeOf_storeInstr r m).symm⟩
  · omega

theorem decodeOpcode_branch {b : Byte} (h : 0x10 ≤ b.toNat) (h' : b.toNat < 0x17) :
    ∃ k, decodeOpcode b = .ok (branchInstr k) ∧ 0x10 + codeOfBranch k = b.toNat := by
  obtain ⟨i, hdec, rfl⟩ := decodeOpcode_of_not_listed (b := b) (by rw [listedIllegal_iff]; omega)
  obtain hmath | hloadStore | ⟨-, -, k, rfl⟩ | hother := opcodeOf_range i
  · omega
  · omega
  · exact ⟨k, hdec, (toNat_opcodeOf_branchInstr k).symm⟩
  · omega

/-- Settles O4: a legal byte is the opcode byte of what it decodes to, and the range it lies in names the variant. -/
theorem decodedFieldsGiveTheByteBack : Obligations.DecodedFieldsGiveTheByteBack := fun _ =>
  ⟨decodeOpcode_math, fun h hlegal => decodeOpcode_loadStore h (by simp [hlegal]), decodeOpcode_branch,
    fun _ => opcodeOf_of_decodeOpcode⟩

end Sys2Proof.Machine

namespace Sys2Proof.Machine

/-! ### Fetch and cycle (spec/40_fetch_cycle.md) -/

/-- Below the top of memory the successor of an address is one higher. -/
theorem toNat_addrSucc {a : Word} (h : a ≠ 0xFFFF) : (addrSucc a).toNat = a.toNat + 1 := by
  unfold addrSucc
  bv_omega

/-- No instruction writes IR. -/
theorem exec_ir {i : Instr} {s t : State} (h : exec i s = .next t) : t.ir = s.ir := by
  obtain ⟨f, src, dst, rfl⟩ | ⟨r, m, rfl⟩ | ⟨r, m, rfl⟩ | ⟨k, rfl⟩ | rfl | rfl := instr_variants i
  · rw [exec_mathInstr] at h
    cases h
    obtain ⟨hir, -⟩ := mathResult_frame s config f src dst
    exact hir
  · obtain ⟨u, hu, hir, -⟩ := execLoad_next s r m
    rw [exec_loadInstr, hu] at h
    cases h
    exact hir
  · obtain ⟨u, hu, -, -, hir, -⟩ := execStore_next s r m
    rw [exec_storeInstr, hu] at h
    cases h
    exact hir
  · rw [exec_branchInstr, execBranch_eq] at h
    cases h
    rfl
  · cases h; rfl
  · cases h; rfl

/-- After any step IR holds the byte that stood at the old PC. -/
theorem step_ir {s t : State} (h : step s = .next t) : t.ir = s.opcode := by
  obtain ⟨-, ⟨-, rfl⟩ | ⟨i, -, hexec⟩⟩ := step_next_cases h
  · rfl
  · exact exec_ir hexec

/-- Settles O13: only the opcode fetch writes IR; neither taking the exception nor any instruction does. -/
theorem everyStepLeavesTheOpcodeInIr : Obligations.EveryStepLeavesTheOpcodeInIr :=
  ⟨fun s => ⟨fetchOpcode_ir s, fetchOpcode_pc s, toNat_addrSucc⟩, fun _ _ => step_ir⟩

/-- R86 from the other side: the opcode byte of every instruction decodes to it. -/
theorem decodeOpcode_opcodeOf (i : Instr) : decodeOpcode (opcodeOf i) = .ok i := by
  cases i with
  | and src dst => exact Laws.RoundTrip.and src dst
  | or src dst => exact Laws.RoundTrip.or src dst
  | xor src dst => exact Laws.RoundTrip.xor src dst
  | add src dst => exact Laws.RoundTrip.add src dst
  | sub src dst => exact Laws.RoundTrip.sub src dst
  | inc src dst => exact Laws.RoundTrip.inc src dst
  | dec src dst => exact Laws.RoundTrip.dec src dst
  | not src dst => exact Laws.RoundTrip.not src dst
  | storeAccAddr => exact Laws.RoundTrip.storeAccAddr
  | storeCAccAddr => exact Laws.RoundTrip.storeCAccAddr
  | storeAccInd => exact Laws.RoundTrip.storeAccInd
  | storeMarAddr => exact Laws.RoundTrip.storeMarAddr
  | storeCMarAddr => exact Laws.RoundTrip.storeCMarAddr
  | storeMarInd => exact Laws.RoundTrip.storeMarInd
  | loadAccAddr => exact Laws.RoundTrip.loadAccAddr
  | loadAccImm => exact Laws.RoundTrip.loadAccImm
  | loadAccInd => exact Laws.RoundTrip.loadAccInd
  | loadMarAddr => exact Laws.RoundTrip.loadMarAddr
  | loadMarImm => exact Laws.RoundTrip.loadMarImm
  | loadMarInd => exact Laws.RoundTrip.loadMarInd
  | bra => exact Laws.RoundTrip.bra
  | brz => exact Laws.RoundTrip.brz
  | bne => exact Laws.RoundTrip.bne
  | blt => exact Laws.RoundTrip.blt
  | ble => exact Laws.RoundTrip.ble
  | bgt => exact Laws.RoundTrip.bgt
  | bge => exact Laws.RoundTrip.bge
  | nop => exact Laws.RoundTrip.nop
  | hault => exact Laws.RoundTrip.hault

/-- Where an instruction's encoding stands in memory from `a` up, its opcode byte stands at `a`. -/
theorem readByte_of_encode_at {m : Memory} {a : Word} {c : Coded}
    (h : ∀ k (hk : k < (encode c).length), readByte m (a + BitVec.ofNat 16 k) = (encode c)[k]) :
    readByte m a = opcodeOf c.instr := by
  have h0 := h 0 (Nat.succ_pos _)
  rwa [BitVec.add_zero] at h0

/-- Settles O14: a Running step is the cycle, which follows the decode of the fetched byte; an instruction encoded at PC
is what that byte decodes to. -/
theorem stepRunsTheDecodedInstruction : Obligations.StepRunsTheDecodedInstruction := by
  intro s hrun
  rw [step_running hrun]
  refine ⟨fun _ => cycle_ok, fun _ => cycle_illegal, fun c _ hstream => cycle_ok ?_⟩
  rw [readByte_of_encode_at hstream, decodeOpcode_opcodeOf]

end Sys2Proof.Machine

namespace Sys2Proof.Machine

/-! ### Mathematical operands and write-back (spec/41_mathematical.md section 1) -/

/-- `{h, l}` (00_scope.md section 5.1) as a number. -/
theorem toNat_joinBytes (h l : Byte) : (joinBytes h l).toNat = h.toNat * 256 + l.toNat := by
  rw [joinBytes, BitVec.toNat_append, ← Nat.shiftLeft_add_eq_or_of_lt l.isLt, Nat.shiftLeft_eq]

/-- R43: the byte at the lower address is the high byte. -/
theorem toNat_readWord (m : Memory) (a : Word) :
    (readWord m a).toNat = (readByte m a).toNat * 256 + (readByte m (addrSucc a)).toNat :=
  toNat_joinBytes _ _

/-- Settles O32: the Memory value is the word at the fetched address, since fetching that address leaves memory as it
was; the other clauses are what `resolve` answers. -/
theorem wordOperandsResolve : Obligations.WordOperandsResolve := by
  intro s
  refine ⟨resolve_mar s config, ?_, ?_, ?_⟩
  · rw [resolve_memory, fetchWord_state]
  · rw [resolve_memory, fetchWord_value, toNat_readWord]
  · rw [resolve_memory, fetchWord_value]

/-- Resolving the src does not move MAR, so an Indirect dst is the byte at the MAR the instruction began with. -/
theorem mathPlace_indirect (src : Target) (s : State) : mathPlace src .indirect s = .byteAt s.mar := by
  rw [mathPlace, resolve_indirect, resolve_state, State.setPc_mar]

/-- Settles O34: the write-back by place, with the read-after-write laws of memory for the two places in memory. -/
theorem writeBackIsAtTheWidthOfTheDst : Obligations.WriteBackIsAtTheWidthOfTheDst := by
  intro s r a
  refine ⟨writeDst_acc s r, writeDst_mar s r, ⟨_, writeDst_byteAt s a r, ?_, ?_⟩,
    ⟨_, writeDst_wordAt s a r, ?_, ?_⟩, fun src => mathPlace_indirect src s⟩
  · exact readByte_writeByte_self s.mem a (lowByte r)
  · exact fun _ hb => readByte_writeByte_other s.mem (lowByte r) hb
  · exact readWord_writeWord_self s.mem a r
  · exact fun _ hb hb' => readByte_writeWord_other s.mem r hb hb'

end Sys2Proof.Machine

namespace Sys2Proof.Machine

/-! ### Load (spec/42_load.md) -/

/-- A Running cycle whose opcode byte is that of `i` executes `i`, after the opcode fetch. -/
theorem step_of_opcode {s : State} (i : Instr) (hrun : s.runstate = .running) (hop : s.opcode = opcodeOf i) :
    step s = exec i (fetchOpcode s) := by
  have hdec : decodeOpcode s.opcode = .ok i := hop ▸ decodeOpcode_opcodeOf i
  exact (step_running hrun).trans (cycle_ok hdec)

variable (s : State)

/-! R150 by method: the two reads of memory, and the immediate. -/

theorem execLoad_address (r : Reg) :
    execLoad r .address s = .next (loadFrom r (fetchWord s).1 (fetchWord s).2) := rfl

theorem execLoad_constant (r : Reg) : execLoad r .constant s = .next (loadImmediate r s) := rfl

theorem execLoad_indirect (r : Reg) : execLoad r .indirect s = .next (loadFrom r s.mar s) := rfl

/-! R150 by register: ACC takes a byte, MAR a word (R43: high byte first). -/

theorem loadFrom_acc (addr : Word) : loadFrom .acc addr s = { s with acc := readByte s.mem addr } := rfl

theorem loadFrom_mar (addr : Word) :
    loadFrom .mar addr s = { s with mar := readByte s.mem addr ++ readByte s.mem (addrSucc addr) } := rfl

theorem loadImmediate_acc : loadImmediate .acc s = { (fetchByte s).2 with acc := (fetchByte s).1 } := rfl

theorem loadImmediate_mar : loadImmediate .mar s = { (fetchWord s).2 with mar := (fetchWord s).1 } := rfl

/-- Fetching an address leaves memory as it was, so a Load from it reads the memory the instruction began with. -/
theorem fetchWord_mem : (fetchWord s).2.mem = s.mem := by
  rw [fetchWord_state, State.setPc_mem]

/-- Settles O44: R150 at ACC for each method, and R86 for the three opcode bytes. -/
theorem loadAccCompletes : Obligations.LoadAccCompletes := by
  intro s
  have haddr := exec_loadInstr s .acc .address
  have himm := exec_loadInstr s .acc .constant
  have hind := exec_loadInstr s .acc .indirect
  rw [execLoad_address, loadFrom_acc, fetchWord_mem] at haddr
  rw [execLoad_constant, loadImmediate_acc] at himm
  rw [execLoad_indirect, loadFrom_acc] at hind
  exact ⟨haddr, himm, hind, step_of_opcode .loadAccAddr, step_of_opcode .loadAccImm, step_of_opcode .loadAccInd⟩

/-- Settles O45: R150 at MAR for each method, and R86 for the three opcode bytes. -/
theorem loadMarCompletes : Obligations.LoadMarCompletes := by
  intro s
  have haddr := exec_loadInstr s .mar .address
  have himm := exec_loadInstr s .mar .constant
  have hind := exec_loadInstr s .mar .indirect
  rw [execLoad_address, loadFrom_mar, fetchWord_mem] at haddr
  rw [execLoad_constant, loadImmediate_mar] at himm
  rw [execLoad_indirect, loadFrom_mar] at hind
  exact ⟨haddr, himm, hind, step_of_opcode .loadMarAddr, step_of_opcode .loadMarImm, step_of_opcode .loadMarInd⟩

end Sys2Proof.Machine

namespace Sys2Proof.Machine

/-! ### Store: the Constant method (spec/43_store.md R168) -/

variable (r : Reg) (s : State)

/-- The two methods locate the address alike: both fetch it from the stream, whatever the register. -/
theorem storeAddress_constant : storeAddress .constant s = storeAddress .address s := rfl

/-- What a Store does depends on its method through the address only. -/
theorem execStore_constant : execStore r .constant s = execStore r .address s := by
  rw [execStore, execStore, storeAddress_constant]

theorem exec_storeInstr_constant : exec (storeInstr r .constant) s = exec (storeInstr r .address) s := by
  rw [exec_storeInstr, exec_storeInstr, execStore_constant]

theorem operandBytes_storeInstr_constant : operandBytes (storeInstr r .constant) = 2 := by
  cases r with
  | acc => rfl
  | mar => rfl

/-- The opcode bytes of the two methods differ by one (R75), so the instructions differ. -/
theorem storeInstr_constant_ne_address : storeInstr r .constant ≠ storeInstr r .address := by
  intro h
  have hcode := congrArg (fun i => (opcodeOf i).toNat) h
  simp only [toNat_opcodeOf_storeInstr, codeOfMethod] at hcode
  omega

/-- Settles O49: the two methods share their address and hence their effect, and differ in their opcode byte. -/
theorem storeConstantIsAnAliasOfAddress : Obligations.StoreConstantIsAnAliasOfAddress :=
  ⟨fun s => ⟨exec_storeInstr_constant .acc s, exec_storeInstr_constant .mar s⟩,
    operandBytes_storeInstr_constant .acc, operandBytes_storeInstr_constant .mar,
    fun r s => ⟨storeAddress_constant s, storeInstr_constant_ne_address r⟩⟩

end Sys2Proof.Machine

namespace Sys2Proof.Machine

/-! ### Branch (spec/44_branch.md) -/

section
variable (acc : Byte)

/-- The model's signed reading of a byte is the library's. -/
theorem signed8_eq_toInt : signed8 acc = acc.toInt := by
  rw [signed8, BitVec.toInt_eq_toNat_cond]
  split <;> split <;> omega

/-! R172, the condition of each kind on the signed reading of ACC. -/

theorem taken_bra : taken .bra acc = true := rfl

theorem taken_brz_iff : taken .brz acc = true ↔ acc.toInt = 0 := by
  rw [taken, decide_eq_true_iff, signed8_eq_toInt]

theorem taken_bne_iff : taken .bne acc = true ↔ acc.toInt ≠ 0 := by
  rw [taken, decide_eq_true_iff, signed8_eq_toInt]

theorem taken_blt_iff : taken .blt acc = true ↔ acc.toInt < 0 := by
  rw [taken, decide_eq_true_iff, signed8_eq_toInt]

theorem taken_ble_iff : taken .ble acc = true ↔ acc.toInt ≤ 0 := by
  rw [taken, decide_eq_true_iff, signed8_eq_toInt]

theorem taken_bgt_iff : taken .bgt acc = true ↔ acc.toInt > 0 := by
  rw [taken, decide_eq_true_iff, signed8_eq_toInt]

theorem taken_bge_iff : taken .bge acc = true ↔ acc.toInt ≥ 0 := by
  rw [taken, decide_eq_true_iff, signed8_eq_toInt]

/-! R172, the three tests behind the seven conditions, on the bits of ACC. -/

theorem toInt_eq_zero_iff : acc.toInt = 0 ↔ acc = 0x00 := BitVec.toInt_inj (y := 0x00)

theorem toInt_neg_iff_bit7 : acc.toInt < 0 ↔ acc.getLsbD 7 = true := by
  rw [← decide_eq_true_iff (p := acc.toInt < 0), ← BitVec.msb_eq_toInt, BitVec.msb_eq_getLsbD_last]

theorem toInt_nonpos_iff : acc.toInt ≤ 0 ↔ (acc.getLsbD 7 || acc == 0x00) = true := by
  rw [Bool.or_eq_true, beq_iff_eq, ← toInt_neg_iff_bit7, ← toInt_eq_zero_iff]
  exact Int.le_iff_lt_or_eq

end

variable (s : State)

/-- R170: a Branch whose condition says `p` of ACC fetches its target, and moves PC there exactly if `p`. -/
theorem exec_branchInstr_of_taken_iff (k : BranchKind) {p : Prop} [Decidable p] (h : taken k s.acc = true ↔ p) :
    exec (branchInstr k) s = .next (if p then { (fetchWord s).2 with pc := (fetchWord s).1 } else (fetchWord s).2) := by
  have hacc : (fetchWord s).2.acc = s.acc := by rw [fetchWord_state, State.setPc_acc]
  rw [exec_branchInstr, execBranch, hacc]
  by_cases hp : p
  · rw [if_pos (h.mpr hp), if_pos hp]
    rfl
  · rw [if_neg (fun ht => hp (h.mp ht)), if_neg hp]

/-- The same for a kind whose condition denies `p`. -/
theorem exec_branchInstr_of_taken_iff_not (k : BranchKind) {p : Prop} [Decidable p]
    (h : taken k s.acc = true ↔ ¬ p) :
    exec (branchInstr k) s = .next (if p then (fetchWord s).2 else { (fetchWord s).2 with pc := (fetchWord s).1 }) := by
  rw [exec_branchInstr_of_taken_iff s k h, ite_not]

theorem exec_bra : exec .bra s = .next { (fetchWord s).2 with pc := (fetchWord s).1 } :=
  exec_branchInstr_of_taken_iff s .bra (iff_true_intro (taken_bra s.acc))

/-- Settles O51: the signed conditions of the seven kinds, and the three tests on the bits of ACC they come to. -/
theorem branchConditionReadsAccSigned : Obligations.BranchConditionReadsAccSigned := by
  refine ⟨fun acc => ⟨taken_bra acc, taken_brz_iff acc, taken_bne_iff acc, taken_blt_iff acc, taken_ble_iff acc,
    taken_bgt_iff acc, taken_bge_iff acc⟩, fun s => ⟨_, _, rfl, rfl, exec_bra s, ?_, ?_, ?_, ?_, ?_, ?_⟩⟩
  · exact exec_branchInstr_of_taken_iff s .brz ((taken_brz_iff _).trans (toInt_eq_zero_iff _))
  · exact exec_branchInstr_of_taken_iff_not s .bne ((taken_bne_iff _).trans (toInt_eq_zero_iff _).not)
  · exact exec_branchInstr_of_taken_iff s .blt ((taken_blt_iff _).trans (toInt_neg_iff_bit7 _))
  · exact exec_branchInstr_of_taken_iff s .ble ((taken_ble_iff _).trans (toInt_nonpos_iff _))
  · exact exec_branchInstr_of_taken_iff_not s .bgt
      ((taken_bgt_iff _).trans (Int.not_le.symm.trans (toInt_nonpos_iff _).not))
  · exact exec_branchInstr_of_taken_iff_not s .bge
      ((taken_bge_iff _).trans (Int.not_lt.symm.trans (toInt_neg_iff_bit7 _).not))

/-- Settles O52: R170 with the condition of each kind, and R86 for the seven opcode bytes. -/
theorem branchesComplete : Obligations.BranchesComplete := by
  intro s
  have hbrz := (taken_brz_iff s.acc).trans (toInt_eq_zero_iff s.acc)
  have hbne := (taken_bne_iff s.acc).trans (toInt_eq_zero_iff s.acc).not
  refine ⟨exec_bra s,
    exec_branchInstr_of_taken_iff s .brz hbrz,
    exec_branchInstr_of_taken_iff s .bne hbne,
    exec_branchInstr_of_taken_iff s .blt (taken_blt_iff s.acc),
    exec_branchInstr_of_taken_iff s .ble (taken_ble_iff s.acc),
    exec_branchInstr_of_taken_iff s .bgt (taken_bgt_iff s.acc),
    exec_branchInstr_of_taken_iff s .bge (taken_bge_iff s.acc), fun hrun => ?_⟩
  exact ⟨step_of_opcode .bra hrun, step_of_opcode .brz hrun, step_of_opcode .bne hrun, step_of_opcode .blt hrun,
    step_of_opcode .ble hrun, step_of_opcode .bgt hrun, step_of_opcode .bge hrun⟩

end Sys2Proof.Machine

namespace Sys2Proof.Machine

/-! ### NOP and HAULT (spec/45_nop_hault.md) -/

section
variable {s t : State}

/-- The opcode fetch, for a known byte at PC: it writes IR and PC only. -/
theorem fetchOpcode_of_opcode {b : Byte} (hop : s.opcode = b) :
    fetchOpcode s = { s with ir := b, pc := (fetchByte s).2.pc } := by
  subst hop
  rfl

/-- Below the top of memory the fetch of a byte moves PC one up. -/
theorem toNat_fetchByte_pc (h : s.pc ≠ 0xFFFF) : (fetchByte s).2.pc.toNat = s.pc.toNat + 1 := by
  rw [fetchByte_state, State.setPc_pc, toNat_addrSucc h]

/-- R185: the cycle of NOP is its opcode fetch. -/
theorem step_nop (hrun : s.runstate = .running) (hop : s.opcode = 0x18) :
    step s = .next { s with ir := 0x18, pc := (fetchByte s).2.pc } := by
  rw [step_of_opcode .nop hrun hop, exec_nop, fetchOpcode_of_opcode hop]

/-- R186: the cycle of HAULT is its opcode fetch and the halt. -/
theorem step_hault (hrun : s.runstate = .running) (hop : s.opcode = 0x1C) :
    step s = .next { s with ir := 0x1C, pc := (fetchByte s).2.pc, runstate := .halted } := by
  rw [step_of_opcode .hault hrun hop, exec_hault, fetchOpcode_of_opcode hop]
  rfl

/-! `run` by the run state: one cycle of a Running state, and the end at Halted, whatever fuel is left. -/

theorem runWithin_succ_of_step (hrun : s.runstate = .running) (hstep : step s = .next t) (n : Nat) :
    runWithin (n + 1) s = runWithin n t := by
  have hreason : terminationReason s = none := by simp [terminationReason, hrun]
  simp [runWithin, hreason, hstep]

theorem runWithin_halted (hhalt : s.runstate = .halted) (n : Nat) : runWithin n s = .ended .halted s := by
  have hreason : terminationReason s = some .halted := by simp [terminationReason, hhalt]
  unfold runWithin
  simp [hreason]

/-- R187: a Halted state has no next cycle. -/
theorem step_halted_ne_next (hhalt : s.runstate = .halted) : step s ≠ .next t := by
  rw [step_halted hhalt]
  exact nofun

end

/-- Settles O54: `exec` of NOP keeps the state, so the cycle leaves what the opcode fetch does. -/
theorem nopOnlyAdvances : Obligations.NopOnlyAdvances := fun s =>
  ⟨exec_nop s, fun hrun hop => ⟨_, step_nop hrun hop, rfl, toNat_fetchByte_pc⟩⟩

/-- Settles O55: one cycle reaches the Halted state, where `run` returns and no step is left. -/
theorem haultEndsTheRun : Obligations.HaultEndsTheRun := by
  refine fun s => ⟨exec_hault s, fun hrun hop => ?_⟩
  have hstep := step_hault hrun hop
  refine ⟨_, hstep, rfl, toNat_fetchByte_pc, fun n => ?_, fun u => step_halted_ne_next rfl⟩
  rw [runWithin_succ_of_step hrun hstep, runWithin_halted rfl]

end Sys2Proof.Machine

namespace Sys2Proof.Machine

/-! ### IllegalOpcode (spec/60_exceptions.md) -/

section
variable {s t : State}

/-- R191, R192: the cycle of an illegal opcode is its opcode fetch, the fault record and the run state. -/
theorem step_illegal {b : Byte} (hrun : s.runstate = .running) (hdec : decodeOpcode s.opcode = .illegal b) :
    step s = .next { s with
      ir := s.opcode, pc := s.pc + 1, runstate := .faulted,
      fault := some { opcode := s.opcode, pc := s.pc + 1 } } := by
  have hcycle := cycle_illegal hdec
  rw [decodeOpcode_illegal_byte hdec, raiseIllegalOpcode_eq, fetchOpcode_eq] at hcycle
  exact (step_running hrun).trans hcycle

/-- A faulted run has ended with its record as the reason. -/
theorem terminationReason_faulted {r : FaultRecord} (hfaulted : s.runstate = .faulted) (hrec : s.fault = some r) :
    terminationReason s = some (.faulted r.opcode r.pc) := by
  simp [terminationReason, hfaulted, hrec]

/-- A state that is not Running has no next cycle. -/
theorem step_ne_next_of_not_running (hrun : s.runstate ≠ .running) : step s ≠ .next t :=
  fun hstep => hrun (step_next_cases hstep).1

end

/-- Settles O20: the state the exception leaves is written out by `step_illegal`, with PC back at the offending byte
after subtracting 1; being Faulted with that record, it ends the run. -/
theorem illegalOpcodeIsTakenPrecisely : Obligations.IllegalOpcodeIsTakenPrecisely := by
  intro s b hrun hdec
  exact ⟨_, step_illegal hrun hdec, rfl, rfl, rfl, rfl, BitVec.add_sub_cancel s.pc 1, rfl, rfl, rfl,
    terminationReason_faulted (r := ⟨s.opcode, s.pc + 1⟩) rfl rfl, fun _ => step_ne_next_of_not_running nofun⟩

end Sys2Proof.Machine

namespace Sys2Proof.Machine

/-! ### Construction from an image (spec/70_reset_and_hazards.md R211, R212) -/

/-- The first byte of an image is what its first address reads; every other address reads from the rest. A 0x00 byte
gets no cell, and the rest, which lies above it, lists nothing at its address either. -/
theorem readCell_imageFrom_cons (a k : Nat) (b : Byte) (bytes : List Byte) :
    readCell (imageFrom a (b :: bytes)) k = if a = k then b else readCell (imageFrom (a + 1) bytes) k := by
  by_cases hb : b = unlistedByte
  · have hrest : readCell (imageFrom (a + 1) bytes) a = unlistedByte :=
      readCell_of_above (above_imageFrom bytes (Nat.lt_succ_self a)) le_rfl
    by_cases hk : a = k
    · simp [imageFrom, hb, ← hk, hrest]
    · simp [imageFrom, hb, hk]
  · simp [imageFrom, hb, readCell]

/-- An image placed from address `a` up reads as its byte `k` at `a + k`, and as 0x00 past its end. -/
theorem readCell_imageFrom (a k : Nat) (bytes : List Byte) :
    readCell (imageFrom a bytes) (a + k) = bytes.getD k unlistedByte := by
  induction bytes generalizing a k with
  | nil => rfl
  | cons b bytes ih =>
    rw [readCell_imageFrom_cons]
    cases k with
    | zero => simp
    | succ k =>
      have hshift : a + (k + 1) = a + 1 + k := by omega
      rw [if_neg (by omega), hshift, ih, List.getD_cons_succ]

/-- The memory of an image placed at address 0. -/
theorem readByte_imageFrom_zero (image : List Byte) (a : Word) :
    readByte (imageFrom 0 image) a = image.getD a.toNat 0x00 := by
  have himage := readCell_imageFrom 0 a.toNat image
  rw [Nat.zero_add] at himage
  exact himage

/-- An image that fits into the memory is constructed. -/
theorem construct_of_length_le {image : List Byte} (h : image.length ≤ 65536) :
    construct image = .next (State.reset.setMem (imageFrom 0 image)) :=
  if_pos h

/-- Settles O26: the constructed state's memory reads as the image, and since its PC is 0 the opcode that the first
step leaves in IR is the byte at address 0. -/
theorem constructionPlacesTheImage : Obligations.ConstructionPlacesTheImage := fun image hlen =>
  ⟨_, construct_of_length_le hlen, rfl, readByte_imageFrom_zero image,
    fun _ hstep => (step_ir hstep).trans (readByte_imageFrom_zero image 0x0000)⟩

end Sys2Proof.Machine

namespace Sys2Proof.Machine

/-! ### The byte stream, both ways (spec/30_encoding.md sections 5 and 7) -/

theorem wellFormed_iff (c : Coded) : c.wellFormed = true ↔ c.operands.length = operandBytes c.instr := by
  simp [Coded.wellFormed]

theorem length_encode (c : Coded) : (encode c).length = c.operands.length + 1 := rfl

/-- An opcode byte and enough bytes after it: the operand bytes are split off. -/
theorem decodeStream_cons_ok {b : Byte} {i : Instr} (hdec : decodeOpcode b = .ok i) {operands : List Byte}
    (hlen : operands.length = operandBytes i) (rest : List Byte) :
    decodeStream (b :: (operands ++ rest)) = .ok ⟨i, operands⟩ rest := by
  simp [decodeStream, hdec, ← hlen]

/-- Everything the stream decoder has read when it answers an instruction. -/
theorem decodeStream_ok_cases {bytes rest : List Byte} {c : Coded} (h : decodeStream bytes = .ok c rest) :
    ∃ b, decodeOpcode b = .ok c.instr ∧ c.operands.length = operandBytes c.instr ∧
      bytes = b :: (c.operands ++ rest) := by
  cases bytes with
  | nil => cases h
  | cons b bytes =>
    cases hdec : decodeOpcode b with
    | illegal b' => simp [decodeStream, hdec] at h
    | ok i =>
      simp only [decodeStream, hdec] at h
      split at h
      case isTrue hshort => cases h
      case isFalse henough =>
        cases h
        refine ⟨b, hdec, ?_, by simp⟩
        simp only [List.length_take]
        omega

/-- Settles O5: the opcode byte decodes to the instruction (R86), which then takes as many operand bytes as a
well-formed one has. -/
theorem decodeOfEncodeIsTheInstruction : Obligations.DecodeOfEncodeIsTheInstruction := fun c rest hwf =>
  decodeStream_cons_ok (decodeOpcode_opcodeOf c.instr) ((wellFormed_iff c).mp hwf) rest

/-- Settles O6: the decoder has split off as many operand bytes as the opcode takes, and the opcode byte of what it
decoded is the byte it read (R86). -/
theorem encodeOfDecodeIsTheBytes : Obligations.EncodeOfDecodeIsTheBytes := by
  intro bytes c rest h
  obtain ⟨b, hdec, hlen, rfl⟩ := decodeStream_ok_cases h
  refine ⟨(wellFormed_iff c).mpr hlen, ?_⟩
  rw [encode, opcodeOf_of_decodeOpcode hdec, List.cons_append]

/-- Settles O1: the bytes of R71 to R79 are the opcode bytes of the instructions, and R86 says what those decode to; the
last two bytes are on the list of R82. -/
theorem writtenOutOpcodesDecode : Obligations.WrittenOutOpcodesDecode :=
  ⟨decodeOpcode_opcodeOf (.and .indirect .indirect), decodeOpcode_opcodeOf (.or .memory .acc),
    decodeOpcode_opcodeOf (.xor .mar .memory), decodeOpcode_opcodeOf (.add .mar .acc),
    decodeOpcode_opcodeOf (.sub .acc .mar), decodeOpcode_opcodeOf (.inc .mar .mar),
    decodeOpcode_opcodeOf (.dec .indirect .indirect), decodeOpcode_opcodeOf (.not .indirect .memory),
    decodeOpcode_opcodeOf .storeAccAddr, decodeOpcode_opcodeOf .storeCMarAddr, decodeOpcode_opcodeOf .loadAccAddr,
    decodeOpcode_opcodeOf .loadMarImm, decodeOpcode_opcodeOf .bra, decodeOpcode_opcodeOf .bge,
    (decodeOpcode_illegal_iff _).mpr (by decide), (decodeOpcode_illegal_iff _).mpr (by decide)⟩

/-! The length of an instruction (R84), read off its opcode byte. -/

/-- R74: only Memory, code 3, takes stream bytes. -/
theorem targetBytes_eq (t : Target) : targetBytes t = if codeOfTarget t = 3 then 2 else 0 := by
  cases t <;> rfl

theorem operandBytes_mathInstr (f : MathFunc) (src dst : Target) :
    operandBytes (mathInstr f src dst) = targetBytes src + targetBytes dst := by
  cases f <;> rfl

/-- The two Target fields of a Mathematical opcode are its two lowest pairs of bits, src below dst (R72). -/
theorem listedLength_mathInstr (f : MathFunc) (src dst : Target) :
    listedLength (opcodeOf (mathInstr f src dst)) = instrLength (mathInstr f src dst) := by
  have hsrc := codeOfTarget_lt src
  have hdst := codeOfTarget_lt dst
  have hsrcField : (0x80 + codeOfMathFunc f * 16 + codeOfTarget dst * 4 + codeOfTarget src) % 4 = codeOfTarget src := by
    omega
  have hdstField :
      (0x80 + codeOfMathFunc f * 16 + codeOfTarget dst * 4 + codeOfTarget src) / 4 % 4 = codeOfTarget dst := by
    omega
  rw [listedLength, toNat_opcodeOf_mathInstr, if_pos (by omega), hsrcField, hdstField, instrLength,
    operandBytes_mathInstr, targetBytes_eq, targetBytes_eq, Nat.add_assoc]

theorem listedLength_opcodeOf (i : Instr) : listedLength (opcodeOf i) = instrLength i := by
  obtain ⟨f, src, dst, rfl⟩ | ⟨r, m, rfl⟩ | ⟨r, m, rfl⟩ | ⟨k, rfl⟩ | rfl | rfl := instr_variants i
  · exact listedLength_mathInstr f src dst
  · cases r <;> cases m <;> rfl
  · cases r <;> cases m <;> rfl
  · cases k <;> rfl
  · rfl
  · rfl

theorem bytesConsumed_ok {b : Byte} {i : Instr} (h : decodeOpcode b = .ok i) : bytesConsumed b = instrLength i := by
  simp [bytesConsumed, h]

theorem bytesConsumed_illegal {b b' : Byte} (h : decodeOpcode b = .illegal b') : bytesConsumed b = 1 := by
  simp [bytesConsumed, h]

theorem listedLength_of_listedIllegal {b : Byte} (h : listedIllegal b = true) : listedLength b = 1 := by
  rw [listedIllegal_iff] at h
  simp only [listedLength, List.mem_cons, List.not_mem_nil, or_false, ← BitVec.toNat_inj, BitVec.reduceToNat]
  rw [if_neg (by omega), if_neg (by omega), if_neg (by omega)]

theorem bytesConsumed_eq_listedLength (b : Byte) : bytesConsumed b = listedLength b := by
  obtain ⟨hill, hlisted⟩ | ⟨i, hdec, rfl, -⟩ := decodeOpcode_cases b
  · rw [bytesConsumed_illegal hill, listedLength_of_listedIllegal hlisted]
  · rw [bytesConsumed_ok hdec, listedLength_opcodeOf]

/-- Settles O7: the opcode byte of an instruction spells its length, and the stream decoder takes that many bytes. -/
theorem lengthIsDecidedByTheOpcodeByte : Obligations.LengthIsDecidedByTheOpcodeByte := by
  refine ⟨bytesConsumed_eq_listedLength, fun b bytes rest c h => ?_⟩
  obtain ⟨b', hdec, hlen, heq⟩ := decodeStream_ok_cases h
  obtain ⟨rfl, -⟩ := List.cons.inj heq
  rw [← bytesConsumed_eq_listedLength, bytesConsumed_ok hdec, length_encode, hlen, instrLength, Nat.add_comm]

end Sys2Proof.Machine

namespace Sys2Proof.Machine

/-! ### What executing an instruction changes (spec/00_scope.md R7, spec/10_state.md section 5) -/

section
variable {i : Instr} {r : Reg} {m : Method} {s t : State}

/-- Everything executing an instruction can do, by the spec's variants (R80). -/
theorem exec_next_cases (h : exec i s = .next t) :
    (∃ f src dst, i = mathInstr f src dst ∧ t = mathResult config f src dst s) ∨
      (∃ r m, i = loadInstr r m ∧ execLoad r m s = .next t) ∨
      (∃ r m, i = storeInstr r m ∧ execStore r m s = .next t) ∨
      (∃ k, i = branchInstr k ∧
        t = s.setPc (if taken k s.acc then readWord s.mem s.pc else addrSucc (addrSucc s.pc))) ∨
      (i = .nop ∧ t = s) ∨ (i = .hault ∧ t = s.setRunstate .halted) := by
  obtain ⟨f, src, dst, rfl⟩ | ⟨r, m, rfl⟩ | ⟨r, m, rfl⟩ | ⟨k, rfl⟩ | rfl | rfl := instr_variants i
  · rw [exec_mathInstr] at h
    cases h
    exact .inl ⟨f, src, dst, rfl, rfl⟩
  · exact .inr (.inl ⟨r, m, rfl, exec_loadInstr s r m ▸ h⟩)
  · exact .inr (.inr (.inl ⟨r, m, rfl, exec_storeInstr s r m ▸ h⟩))
  · rw [exec_branchInstr, execBranch_eq] at h
    cases h
    exact .inr (.inr (.inr (.inl ⟨k, rfl, rfl⟩)))
  · cases h
    exact .inr (.inr (.inr (.inr (.inl ⟨rfl, rfl⟩))))
  · cases h
    exact .inr (.inr (.inr (.inr (.inr ⟨rfl, rfl⟩))))

/-! The frames of a Load and a Store as facts about the state they answer. -/

theorem execLoad_frame (h : execLoad r m s = .next t) :
    t.ir = s.ir ∧ t.runstate = s.runstate ∧ t.fault = s.fault ∧ t.mem = s.mem := by
  obtain ⟨u, hu, hframe⟩ := execLoad_next s r m
  rw [hu] at h
  cases h
  exact hframe

theorem execStore_frame (h : execStore r m s = .next t) :
    t.acc = s.acc ∧ t.mar = s.mar ∧ t.ir = s.ir ∧ t.runstate = s.runstate ∧ t.fault = s.fault ∧
      (Memory.wf s.mem = true → Memory.wf t.mem = true) := by
  obtain ⟨u, hu, hframe⟩ := execStore_next s r m
  rw [hu] at h
  cases h
  exact hframe

/-! HAULT is none of the other variants. -/

theorem mathInstr_ne_hault (f : MathFunc) (src dst : Target) : mathInstr f src dst ≠ .hault := by
  cases f <;> nofun

theorem loadInstr_ne_hault (r : Reg) (m : Method) : loadInstr r m ≠ .hault := by
  cases r <;> cases m <;> nofun

theorem storeInstr_ne_hault (r : Reg) (m : Method) : storeInstr r m ≠ .hault := by
  cases r <;> cases m <;> nofun

theorem branchInstr_ne_hault (k : BranchKind) : branchInstr k ≠ .hault := by
  cases k <;> nofun

/-- R31: HAULT halts, every other instruction keeps the run state. -/
theorem exec_runstate (h : exec i s = .next t) : t.runstate = if i = .hault then .halted else s.runstate := by
  obtain ⟨f, src, dst, rfl, rfl⟩ | ⟨r, m, rfl, hload⟩ | ⟨r, m, rfl, hstore⟩ | ⟨k, rfl, rfl⟩ | ⟨rfl, rfl⟩ | ⟨rfl, rfl⟩ :=
    exec_next_cases h
  · obtain ⟨-, -, hrun, -⟩ := mathResult_frame s config f src dst
    rw [if_neg (mathInstr_ne_hault f src dst), hrun]
  · obtain ⟨-, hrun, -⟩ := execLoad_frame hload
    rw [if_neg (loadInstr_ne_hault r m), hrun]
  · obtain ⟨-, -, -, hrun, -⟩ := execStore_frame hstore
    rw [if_neg (storeInstr_ne_hault r m), hrun]
  · rw [if_neg (branchInstr_ne_hault k), State.setPc_runstate]
  · rw [if_neg nofun]
  · rw [if_pos rfl, State.setRunstate_runstate]

/-- Every instruction keeps memory canonical. -/
theorem exec_wf (h : exec i s = .next t) (hwf : Memory.wf s.mem = true) : Memory.wf t.mem = true := by
  obtain ⟨f, src, dst, -, rfl⟩ | ⟨r, m, -, hload⟩ | ⟨r, m, -, hstore⟩ | ⟨k, -, rfl⟩ | ⟨-, rfl⟩ | ⟨-, rfl⟩ :=
    exec_next_cases h
  · exact mathResult_wf s config f src dst hwf
  · obtain ⟨-, -, -, hmem⟩ := execLoad_frame hload
    rw [hmem]
    exact hwf
  · obtain ⟨-, -, -, -, -, hkeep⟩ := execStore_frame hstore
    exact hkeep hwf
  · exact hwf
  · exact hwf
  · exact hwf

end

/-! ### The invariant (spec/10_state.md sections 5 and 6) -/

section
variable {s t : State}

theorem inv_iff_of_running (hrun : s.runstate = .running) :
    s.inv = true ↔ Memory.wf s.mem = true ∧ s.fault = none := by
  simp [State.inv, State.runstateConsistent, hrun]

theorem inv_iff_of_halted (hrun : s.runstate = .halted) :
    s.inv = true ↔ Memory.wf s.mem = true ∧ s.fault = none ∧ s.ir = 0x1C := by
  simp [State.inv, State.runstateConsistent, hrun]

theorem inv_iff_of_faulted (hrun : s.runstate = .faulted) :
    s.inv = true ↔ Memory.wf s.mem = true ∧ s.fault = some { opcode := s.ir, pc := s.pc } ∧
      decodeOpcode s.ir = .illegal s.ir := by
  simp [State.inv, State.runstateConsistent, hrun]

/-- An executed instruction keeps the invariant: it writes neither IR nor the fault record, and the only one that ends
the run is HAULT, whose opcode IR holds. -/
theorem exec_inv {i : Instr} (hexec : exec i s = .next t) (hrun : s.runstate = .running) (hinv : s.inv = true)
    (hdec : decodeOpcode s.ir = .ok i) : t.inv = true := by
  obtain ⟨hwf, hfault⟩ := (inv_iff_of_running hrun).mp hinv
  have hwf' := exec_wf hexec hwf
  have hfault' := (exec_fault hexec).trans hfault
  have hrun' := exec_runstate hexec
  by_cases hi : i = .hault
  · subst hi
    have hir : t.ir = 0x1C := (exec_ir hexec).trans (opcodeOf_of_decodeOpcode hdec).symm
    exact (inv_iff_of_halted hrun').mpr ⟨hwf', hfault', hir⟩
  · rw [if_neg hi, hrun] at hrun'
    exact (inv_iff_of_running hrun').mpr ⟨hwf', hfault'⟩

/-- The opcode fetch of a Running state keeps the invariant, which says nothing of its IR and PC. -/
theorem fetchOpcode_inv (hrun : s.runstate = .running) (hinv : s.inv = true) : (fetchOpcode s).inv = true := by
  have hrun' : (fetchOpcode s).runstate = .running := hrun
  rw [inv_iff_of_running hrun] at hinv
  exact (inv_iff_of_running hrun').mpr hinv

/-- Settles O22: taking the exception writes the record that the invariant asks for, and every executed instruction
keeps the invariant. -/
theorem everyStepKeepsTheStateConsistent : Obligations.EveryStepKeepsTheStateConsistent := by
  intro s t hinv hstep
  obtain ⟨hrun, ⟨hill, rfl⟩ | ⟨i, hdec, hexec⟩⟩ := step_next_cases hstep
  · obtain ⟨hwf, -⟩ := (inv_iff_of_running hrun).mp hinv
    exact (inv_iff_of_faulted rfl).mpr ⟨hwf, rfl, hill⟩
  · exact exec_inv hexec hrun (fetchOpcode_inv hrun hinv) hdec

/-! ### Run state and fault record across a step (spec/10_state.md section 5) -/

/-- Settles O18: the exception faults, HAULT halts, and R83 and R82 say which opcode bytes those are. -/
theorem runstateMovesOnlyOnHaultOrIllegalOpcode : Obligations.RunstateMovesOnlyOnHaultOrIllegalOpcode := by
  intro s t hstep
  obtain ⟨hrun, ⟨hill, rfl⟩ | ⟨i, hdec, hexec⟩⟩ := step_next_cases hstep
  · have hlisted : listedIllegal s.opcode = true := (decodeOpcode_illegal_iff _).mp hill
    have hne : s.opcode ≠ 0x1C#8 := fun h => absurd (h ▸ hlisted) (by decide)
    simp [hrun, hlisted, hne, raiseIllegalOpcode_eq]
  · have hdec' : decodeOpcode s.opcode = .ok i := hdec
    have hlegal : listedIllegal s.opcode = false := by
      rw [← Bool.not_eq_true, ← decodeOpcode_illegal_iff, hdec']
      nofun
    obtain ⟨-, hhault, -⟩ := nopAndHaultAreExactBytes
    have hop : s.opcode = 0x1C#8 ↔ i = .hault :=
      (hhault s.opcode).symm.trans (by rw [hdec', DecodeResult.ok.injEq])
    have hrun' := exec_runstate hexec
    rw [fetchOpcode_runstate, hrun] at hrun'
    by_cases hi : i = .hault <;> simp [hrun, hrun', hlegal, hop, hi]

/-- Settles O19: the exception records the opcode and the PC after its fetch; no instruction writes the record. -/
theorem faultRecordIsWrittenOnlyByIllegalOpcode : Obligations.FaultRecordIsWrittenOnlyByIllegalOpcode := by
  intro s t hstep
  obtain ⟨-, ⟨hill, rfl⟩ | ⟨i, hdec, hexec⟩⟩ := step_next_cases hstep
  · have hlisted : listedIllegal s.opcode = true := (decodeOpcode_illegal_iff _).mp hill
    exact ⟨fun _ => rfl, fun hlegal => absurd hlisted (by simp [hlegal])⟩
  · refine ⟨fun hlisted => ?_, fun _ => (exec_fault hexec).trans (fetchOpcode_fault s)⟩
    have hill : decodeOpcode s.opcode = .illegal s.opcode := (decodeOpcode_illegal_iff _).mpr hlisted
    exact absurd (hdec.symm.trans hill) nofun

/-- Settles O21: only a Running state has a next state; the two answers are those of `step` by run state. -/
theorem noStepAfterTheRunHasEnded : Obligations.NoStepAfterTheRunHasEnded := by
  refine fun s => ⟨fun hrun _ => step_ne_next_of_not_running hrun, step_halted, fun r hfaulted hrec => ?_⟩
  simp [step_faulted hfaulted, faultedOutcome, hrec]

end

end Sys2Proof.Machine

namespace Sys2Proof.Machine

/-! ### The one write of an instruction (spec/00_scope.md R7, spec/40_fetch_cycle.md section 3) -/

/-- The place a Load writes: its register. -/
def regPlace (r : Reg) : Place :=
  match r with
  | .acc => .acc
  | .mar => .mar

/-- The place a Store to `addr` writes: a byte for ACC, a word for MAR. -/
def storePlace (r : Reg) (addr : Word) : Place :=
  match r with
  | .acc => .byteAt addr
  | .mar => .wordAt addr

/-- `s` with the next `n` stream bytes consumed. -/
def afterOperands (n : Nat) (s : State) : State := s.setPc (s.pc + BitVec.ofNat 16 n)

section
variable (s : State)

theorem addrSucc_addrSucc (a : Word) : addrSucc (addrSucc a) = a + 2 := by
  simp [addrSucc, BitVec.add_assoc]

@[simp] theorem afterOperands_acc (n : Nat) : (afterOperands n s).acc = s.acc := rfl
@[simp] theorem afterOperands_mar (n : Nat) : (afterOperands n s).mar = s.mar := rfl
@[simp] theorem afterOperands_pc (n : Nat) : (afterOperands n s).pc = s.pc + BitVec.ofNat 16 n := rfl
@[simp] theorem afterOperands_mem (n : Nat) : (afterOperands n s).mem = s.mem := rfl

theorem afterOperands_zero : afterOperands 0 s = s := by
  rw [afterOperands, BitVec.add_zero]
  rfl

theorem afterOperands_one : afterOperands 1 s = (fetchByte s).2 := rfl

theorem afterOperands_two : afterOperands 2 s = (fetchWord s).2 := by
  rw [fetchWord_state, addrSucc_addrSucc]
  rfl

theorem afterOperands_add (n k : Nat) : afterOperands k (afterOperands n s) = afterOperands (n + k) s := by
  simp only [afterOperands, State.setPc, BitVec.ofNat_add, BitVec.add_assoc]

/-- A Mathematical instruction is a write-back to the place of its dst. -/
theorem mathResult_eq_writeDst (f : MathFunc) (src dst : Target) :
    ∃ v, mathResult config f src dst s =
      writeDst (mathPlace src dst s) v (afterOperands (operandBytes (mathInstr f src dst)) s) := by
  have hstate (t : Target) (u : State) : (resolve config t u).state = afterOperands (targetBytes t) u :=
    resolve_state u config t
  have hend : (resolve config dst (resolve config src s).state).state =
      afterOperands (operandBytes (mathInstr f src dst)) s := by
    rw [hstate, hstate, afterOperands_add, operandBytes_mathInstr]
  rw [← hend]
  exact ⟨_, rfl⟩

/-- A Load writes its register as a write-back to it would. -/
theorem loadFrom_eq_writeDst (r : Reg) (addr : Word) : ∃ v, loadFrom r addr s = writeDst (regPlace r) v s := by
  cases r with
  | acc => exact ⟨widenByte .zero (readByte s.mem addr), by simp [loadFrom, regPlace]⟩
  | mar => exact ⟨readWord s.mem addr, rfl⟩

theorem execLoad_eq_writeDst (r : Reg) (m : Method) :
    ∃ v, execLoad r m s = .next (writeDst (regPlace r) v (afterOperands (operandBytes (loadInstr r m)) s)) := by
  cases m with
  | address =>
    have hlen : operandBytes (loadInstr r .address) = 2 := by cases r <;> rfl
    obtain ⟨v, hv⟩ := loadFrom_eq_writeDst (fetchWord s).2 r (fetchWord s).1
    exact ⟨v, by rw [execLoad_address, hv, hlen, afterOperands_two]⟩
  | constant =>
    cases r with
    | acc =>
      have hlen : operandBytes (loadInstr .acc .constant) = 1 := rfl
      exact ⟨widenByte .zero (fetchByte s).1, by
        rw [execLoad_constant, hlen, afterOperands_one, regPlace, writeDst_acc, lowByte_widenByte, loadImmediate]⟩
    | mar =>
      have hlen : operandBytes (loadInstr .mar .constant) = 2 := rfl
      exact ⟨(fetchWord s).1, by
        rw [execLoad_constant, hlen, afterOperands_two, regPlace, writeDst_mar, loadImmediate]⟩
  | indirect =>
    have hlen : operandBytes (loadInstr r .indirect) = 0 := by cases r <;> rfl
    obtain ⟨v, hv⟩ := loadFrom_eq_writeDst s r s.mar
    exact ⟨v, by rw [execLoad_indirect, hv, hlen, afterOperands_zero]⟩

/-- A Store writes memory as a write-back to its place would. -/
theorem storeTo_eq_writeDst (r : Reg) (addr : Word) : ∃ v, storeTo r addr s = writeDst (storePlace r addr) v s := by
  cases r with
  | acc => exact ⟨widenByte .zero s.acc, by simp [storeTo, storePlace]⟩
  | mar => exact ⟨s.mar, rfl⟩

theorem storeAddress_state (r : Reg) (m : Method) :
    (storeAddress m s).2 = afterOperands (operandBytes (storeInstr r m)) s := by
  cases m with
  | address =>
    have hlen : operandBytes (storeInstr r .address) = 2 := by cases r <;> rfl
    rw [hlen, afterOperands_two, storeAddress]
  | constant => rw [operandBytes_storeInstr_constant, afterOperands_two, storeAddress]
  | indirect =>
    have hlen : operandBytes (storeInstr r .indirect) = 0 := by cases r <;> rfl
    rw [hlen, afterOperands_zero, storeAddress]

theorem execStore_eq_writeDst (r : Reg) (m : Method) :
    ∃ v, execStore r m s = .next (writeDst (storePlace r (storeAddress m s).1) v
      (afterOperands (operandBytes (storeInstr r m)) s)) := by
  obtain ⟨v, hv⟩ := storeTo_eq_writeDst (storeAddress m s).2 r (storeAddress m s).1
  exact ⟨v, by rw [execStore, hv, storeAddress_state s r]⟩

/-! The written place by variant. -/

theorem writtenPlace_mathInstr (f : MathFunc) (src dst : Target) :
    writtenPlace (mathInstr f src dst) s = some (mathPlace src dst s) := by
  cases f <;> rfl

theorem writtenPlace_loadInstr (r : Reg) (m : Method) : writtenPlace (loadInstr r m) s = some (regPlace r) := by
  cases r <;> cases m <;> rfl

theorem writtenPlace_storeInstr (r : Reg) (m : Method) :
    writtenPlace (storeInstr r m) s = some (storePlace r (storeAddress m s).1) := by
  cases r <;> cases m <;> rfl

theorem writtenPlace_branchInstr (k : BranchKind) : writtenPlace (branchInstr k) s = none := by
  cases k <;> rfl

end

section
variable {i : Instr} {p : Place} {s t : State}

/-- An instruction with a written place consumes its operand bytes and makes one write-back to that place. -/
theorem exec_of_writtenPlace (hp : writtenPlace i s = some p) (h : exec i s = .next t) :
    ∃ v, t = writeDst p v (afterOperands (operandBytes i) s) := by
  obtain ⟨f, src, dst, rfl, rfl⟩ | ⟨r, m, rfl, hload⟩ | ⟨r, m, rfl, hstore⟩ | ⟨k, rfl, -⟩ | ⟨rfl, -⟩ | ⟨rfl, -⟩ :=
    exec_next_cases h
  · rw [writtenPlace_mathInstr] at hp
    cases hp
    exact mathResult_eq_writeDst s f src dst
  · rw [writtenPlace_loadInstr] at hp
    cases hp
    obtain ⟨v, hv⟩ := execLoad_eq_writeDst s r m
    rw [hv] at hload
    cases hload
    exact ⟨v, rfl⟩
  · rw [writtenPlace_storeInstr] at hp
    cases hp
    obtain ⟨v, hv⟩ := execStore_eq_writeDst s r m
    rw [hv] at hstore
    cases hstore
    exact ⟨v, rfl⟩
  · rw [writtenPlace_branchInstr] at hp
    cases hp
  · cases hp
  · cases hp

theorem writtenPlace_none_cases (hp : writtenPlace i s = none) :
    (∃ k, i = branchInstr k) ∨ i = .nop ∨ i = .hault := by
  obtain ⟨f, src, dst, rfl⟩ | ⟨r, m, rfl⟩ | ⟨r, m, rfl⟩ | hother := instr_variants i
  · rw [writtenPlace_mathInstr] at hp
    cases hp
  · rw [writtenPlace_loadInstr] at hp
    cases hp
  · rw [writtenPlace_storeInstr] at hp
    cases hp
  · exact hother

/-- An instruction without a written place leaves ACC, MAR and memory. -/
theorem exec_of_writtenPlace_none (hp : writtenPlace i s = none) (h : exec i s = .next t) :
    t.acc = s.acc ∧ t.mar = s.mar ∧ t.mem = s.mem := by
  obtain ⟨k, rfl⟩ | rfl | rfl := writtenPlace_none_cases hp
  · rw [exec_branchInstr, execBranch_eq] at h
    cases h
    exact ⟨rfl, rfl, rfl⟩
  · cases h
    exact ⟨rfl, rfl, rfl⟩
  · cases h
    exact ⟨rfl, rfl, rfl⟩

/-! What a write-back leaves: the registers it is not to, and the bytes it does not cover. -/

theorem writeDst_acc_of_ne (hp : p ≠ .acc) (v : Word) : (writeDst p v s).acc = s.acc := by
  cases p with
  | acc => exact absurd rfl hp
  | mar => rfl
  | byteAt addr => rfl
  | wordAt addr => rfl

theorem writeDst_mar_of_ne (hp : p ≠ .mar) (v : Word) : (writeDst p v s).mar = s.mar := by
  cases p with
  | acc => rfl
  | mar => exact absurd rfl hp
  | byteAt addr => rfl
  | wordAt addr => rfl

theorem readByte_writeDst_of_not_mem {a : Word} (ha : a ∉ p.addresses) (v : Word) :
    readByte (writeDst p v s).mem a = readByte s.mem a := by
  cases p with
  | acc => rfl
  | mar => rfl
  | byteAt addr =>
    have hne : a ≠ addr := fun h => ha (by simp [Place.addresses, h])
    exact readByte_writeByte_other s.mem _ hne
  | wordAt addr =>
    have hne : a ≠ addr := fun h => ha (by simp [Place.addresses, h])
    have hne' : a ≠ addrSucc addr := fun h => ha (by simp [Place.addresses, h])
    exact readByte_writeWord_other s.mem v hne hne'

theorem length_addresses_le (p : Place) : p.addresses.length ≤ 2 := by
  cases p <;> simp [Place.addresses]

/-! The frame of an instruction. -/

theorem exec_acc_of_writtenPlace_ne (hp : writtenPlace i s ≠ some .acc) (h : exec i s = .next t) : t.acc = s.acc := by
  cases hplace : writtenPlace i s with
  | none => exact (exec_of_writtenPlace_none hplace h).1
  | some p =>
    obtain ⟨v, rfl⟩ := exec_of_writtenPlace hplace h
    rw [writeDst_acc_of_ne (fun hacc => hp (hacc ▸ hplace)), afterOperands_acc]

theorem exec_mar_of_writtenPlace_ne (hp : writtenPlace i s ≠ some .mar) (h : exec i s = .next t) : t.mar = s.mar := by
  cases hplace : writtenPlace i s with
  | none => exact (exec_of_writtenPlace_none hplace h).2.1
  | some p =>
    obtain ⟨v, rfl⟩ := exec_of_writtenPlace hplace h
    rw [writeDst_mar_of_ne (fun hmar => hp (hmar ▸ hplace)), afterOperands_mar]

theorem readByte_exec_of_not_mem (hp : writtenPlace i s = some p) (h : exec i s = .next t) {a : Word}
    (ha : a ∉ p.addresses) : readByte t.mem a = readByte s.mem a := by
  obtain ⟨v, rfl⟩ := exec_of_writtenPlace hp h
  rw [readByte_writeDst_of_not_mem ha, afterOperands_mem]

end

/-! ### What a cycle leaves unchanged -/

/-- Settles O15: a Running cycle takes the exception, or executes an instruction, which always completes; without a
written place memory is left, and with one only the addresses it covers are written. -/
theorem everyCycleCompletesWithAtMostOneWrite : Obligations.EveryCycleCompletesWithAtMostOneWrite := by
  intro s hrun
  cases hdec : decodeOpcode s.opcode with
  | illegal b => exact ⟨_, step_illegal hrun hdec, fun _ _ => rfl, nofun⟩
  | ok i =>
    obtain ⟨t, hexec⟩ := exec_next (fetchOpcode s) i
    refine ⟨t, ((step_running hrun).trans (cycle_ok hdec)).trans hexec, nofun, ?_⟩
    rintro _ ⟨⟩
    refine ⟨fun hnone => ?_, fun p hp => ⟨length_addresses_le p, fun a ha => ?_⟩⟩
    · obtain ⟨-, -, hmem⟩ := exec_of_writtenPlace_none hnone hexec
      exact hmem
    · exact readByte_exec_of_not_mem hp hexec ha

/-- Settles O16: the exception writes no register of the file, and an instruction writes ACC or MAR only as its written
place. -/
theorem onlyTheWrittenRegisterChanges : Obligations.OnlyTheWrittenRegisterChanges := by
  intro s t hstep
  obtain ⟨-, ⟨-, rfl⟩ | ⟨i, hdec, hexec⟩⟩ := step_next_cases hstep
  · exact ⟨fun hne => absurd rfl hne, fun hne => absurd rfl hne⟩
  · refine ⟨fun hne => ⟨i, hdec, ?_⟩, fun hne => ⟨i, hdec, ?_⟩⟩
    · exact not_not.mp fun hp => hne ((exec_acc_of_writtenPlace_ne hp hexec).trans (fetchOpcode_acc s))
    · exact not_not.mp fun hp => hne ((exec_mar_of_writtenPlace_ne hp hexec).trans (fetchOpcode_mar s))

end Sys2Proof.Machine

namespace Sys2Proof.Machine

/-! ### PC across a step (spec/10_state.md section 3) -/

section
variable {i : Instr} {s t : State}

theorem branchKind_branchInstr (k : BranchKind) : branchKind (branchInstr k) = some k := by
  cases k <;> rfl

/-- Only a Branch has a kind. -/
theorem eq_branchInstr_of_branchKind {k : BranchKind} (h : branchKind i = some k) : i = branchInstr k := by
  obtain ⟨f, src, dst, rfl⟩ | ⟨r, m, rfl⟩ | ⟨r, m, rfl⟩ | ⟨k', rfl⟩ | rfl | rfl := instr_variants i
  · cases f <;> cases h
  · cases r <;> cases m <;> cases h
  · cases r <;> cases m <;> cases h
  · rw [branchKind_branchInstr] at h
    cases h
    rfl
  · cases h
  · cases h

theorem operandBytes_branchInstr (k : BranchKind) : operandBytes (branchInstr k) = 2 := by
  cases k <;> rfl

/-- Execution leaves PC past the operand bytes, unless it is that of a taken Branch. -/
theorem exec_pc_of_not_taken (h : exec i s = .next t) (hnot : ∀ k, branchKind i = some k → taken k s.acc = false) :
    t.pc = s.pc + BitVec.ofNat 16 (operandBytes i) := by
  cases hplace : writtenPlace i s with
  | some p =>
    obtain ⟨v, rfl⟩ := exec_of_writtenPlace hplace h
    obtain ⟨-, hpc, -⟩ := writeDst_frame (afterOperands (operandBytes i) s) p v
    rw [hpc, afterOperands_pc]
  | none =>
    obtain ⟨k, rfl⟩ | rfl | rfl := writtenPlace_none_cases hplace
    · rw [exec_branchInstr, execBranch_eq, hnot k (branchKind_branchInstr k)] at h
      cases h
      rw [operandBytes_branchInstr]
      exact addrSucc_addrSucc s.pc
    · cases h
      exact (BitVec.add_zero s.pc).symm
    · cases h
      exact (BitVec.add_zero s.pc).symm

/-- The opcode byte and the operand bytes, added to PC one after the other or at once. -/
theorem toNat_add_ofNat_one_add (p : Word) (n : Nat) :
    (addrSucc p + BitVec.ofNat 16 n).toNat = (p.toNat + (1 + n)) % 65536 := by
  have hone : (1 : Word).toNat = 1 := rfl
  simp only [addrSucc, BitVec.toNat_add, BitVec.toNat_ofNat, hone]
  omega

/-- R170, R171: the cycle of a Branch moves PC to the target or past its three bytes, writes IR, and nothing else. -/
theorem step_branchInstr {k : BranchKind} (hrun : s.runstate = .running)
    (hdec : decodeOpcode s.opcode = .ok (branchInstr k)) :
    step s = .next { s with
      ir := s.opcode, pc := if taken k s.acc then readWord s.mem (s.pc + 1) else s.pc + 3 } := by
  have hpast : addrSucc (addrSucc (addrSucc s.pc)) = s.pc + 3 := by
    rw [addrSucc_addrSucc, addrSucc, BitVec.add_assoc]
    rfl
  rw [step_running hrun, cycle_ok hdec, exec_branchInstr, execBranch_eq, fetchOpcode_pc, hpast]
  rfl

/-- Settles O17: a taken Branch is at its target; the exception consumes the opcode byte, and every other instruction
the opcode byte and its operand bytes. -/
theorem pcAfterAStep : Obligations.PcAfterAStep := by
  intro s t hstep
  refine ⟨fun i k hdec hkind htaken => ?_, fun hnot => ?_⟩
  · obtain ⟨hrun, -⟩ := step_next_cases hstep
    rw [eq_branchInstr_of_branchKind hkind] at hdec
    rw [step_branchInstr hrun hdec, htaken] at hstep
    cases hstep
    rfl
  · obtain ⟨-, ⟨hill, rfl⟩ | ⟨i, hdec, hexec⟩⟩ := step_next_cases hstep
    · rw [State.opcode, bytesConsumed_illegal hill]
      have hpc := toNat_add_ofNat_one_add s.pc 0
      rwa [BitVec.add_zero] at hpc
    · rw [exec_pc_of_not_taken hexec fun k => hnot i k hdec, State.opcode, bytesConsumed_ok hdec]
      exact toNat_add_ofNat_one_add s.pc (operandBytes i)

/-- Settles O53: the cycle of a Branch, written out. -/
theorem branchCycleOutcome : Obligations.BranchCycleOutcome := fun _ _ => step_branchInstr

end

/-! ### The Load cycle (spec/42_load.md section 1) -/

section
variable {s : State}

/-- R150, R15: the cycle of a Load is its fetches and one write-back to its register. -/
theorem step_loadInstr {r : Reg} {m : Method} (hrun : s.runstate = .running)
    (hdec : decodeOpcode s.opcode = .ok (loadInstr r m)) :
    ∃ v, step s = .next (writeDst (regPlace r) v (afterOperands (operandBytes (loadInstr r m)) (fetchOpcode s))) := by
  rw [step_running hrun, cycle_ok hdec, exec_loadInstr]
  exact execLoad_eq_writeDst (fetchOpcode s) r m

/-- Settles O46: the cycle is a write-back to the one register, after the fetches. -/
theorem loadCycleChangesOnlyItsRegister : Obligations.LoadCycleChangesOnlyItsRegister := by
  intro s r m hrun hdec
  obtain ⟨v, hstep⟩ := step_loadInstr hrun hdec
  refine ⟨_, hstep, step_ir hstep, ?_⟩
  cases r with
  | acc => exact ⟨hrun, rfl, rfl, fun _ => rfl, nofun, rfl⟩
  | mar => exact ⟨hrun, rfl, rfl, nofun, fun _ => rfl, rfl⟩

end

/-! ### The Mathematical cycle (spec/41_mathematical.md section 2) -/

section
variable (src dst : Target) (s : State)

theorem mathPlace_acc : mathPlace src .acc s = .acc := rfl

theorem mathPlace_mar : mathPlace src .mar s = .mar := rfl

theorem mathPlace_memory :
    mathPlace src .memory s = .wordAt (readWord s.mem (s.pc + BitVec.ofNat 16 (targetBytes src))) := by
  rw [mathPlace, resolve_memory, resolve_state, State.setPc_mem, State.setPc_pc]

/-! The place of a dst is a register exactly if the dst is. -/

theorem mathPlace_eq_acc_iff : mathPlace src dst s = .acc ↔ dst = .acc := by
  cases dst with
  | indirect => simp [mathPlace_indirect]
  | acc => simp [mathPlace_acc]
  | mar => simp [mathPlace_mar]
  | memory => simp [mathPlace_memory]

theorem mathPlace_eq_mar_iff : mathPlace src dst s = .mar ↔ dst = .mar := by
  cases dst with
  | indirect => simp [mathPlace_indirect]
  | acc => simp [mathPlace_acc]
  | mar => simp [mathPlace_mar]
  | memory => simp [mathPlace_memory]

theorem ofNat_targetBytes (t : Target) : BitVec.ofNat 16 (targetBytes t) = if t = .memory then 2 else 0 := by
  cases t <;> rfl

/-- A register dst keeps memory. -/
theorem mathResult_mem_of_register (f : MathFunc) (h : dst = .acc ∨ dst = .mar) :
    (mathResult config f src dst s).mem = s.mem := by
  obtain ⟨v, hv⟩ := mathResult_eq_writeDst s f src dst
  rw [hv]
  obtain rfl | rfl := h
  · rw [mathPlace_acc, writeDst_acc, State.setAcc_mem, afterOperands_mem]
  · rw [mathPlace_mar, writeDst_mar, State.setMar_mem, afterOperands_mem]

end

/-- Settles O43: the cycle is the opcode fetch and `mathResult`, whose frame and whose place say what changes. -/
theorem mathematicalCycleChangesOnlyItsDst : Obligations.MathematicalCycleChangesOnlyItsDst := by
  intro s f src dst hrun hdec
  have hexec := exec_mathInstr (fetchOpcode s) f src dst
  have hplace := writtenPlace_mathInstr (fetchOpcode s) f src dst
  obtain ⟨hir, hpc, hrun', hfault⟩ := mathResult_frame (fetchOpcode s) config f src dst
  refine ⟨_, ((step_running hrun).trans (cycle_ok hdec)).trans hexec, hexec, hir, hrun'.trans hrun, hfault,
    ?_, fun hdst => ?_, fun hdst => ?_, fun a ha => ?_, fun hdst => ?_, ?_, ?_⟩
  · rw [hpc, fetchOpcode_pc, ofNat_targetBytes, ofNat_targetBytes]
    rfl
  · refine (exec_acc_of_writtenPlace_ne ?_ hexec).trans (fetchOpcode_acc s)
    simpa [hplace, mathPlace_eq_acc_iff] using hdst
  · refine (exec_mar_of_writtenPlace_ne ?_ hexec).trans (fetchOpcode_mar s)
    simpa [hplace, mathPlace_eq_mar_iff] using hdst
  · exact readByte_exec_of_not_mem hplace hexec ha
  · exact mathResult_mem_of_register src dst (fetchOpcode s) f hdst
  · rintro rfl
    exact mathPlace_indirect src (fetchOpcode s)
  · rintro rfl
    rw [mathPlace_memory, ofNat_targetBytes]
    rfl

/-! ### Stores (spec/43_store.md section 2) -/

section
variable (s : State) (m : Method)

/-- R160 at ACC: one byte, at the address of the method. -/
theorem exec_storeInstr_acc :
    exec (storeInstr .acc m) s = .next ((storeAddress m s).2.setMem
      (writeByte (storeAddress m s).2.mem (storeAddress m s).1 (storeAddress m s).2.acc)) :=
  exec_storeInstr s .acc m

/-- R160 at MAR: two bytes, from the address of the method. -/
theorem exec_storeInstr_mar :
    exec (storeInstr .mar m) s = .next ((storeAddress m s).2.setMem
      (writeWord (storeAddress m s).2.mem (storeAddress m s).1 (storeAddress m s).2.mar)) :=
  exec_storeInstr s .mar m

/-- What a Store of ACC leaves: ACC at the address, all other bytes, all registers but PC. -/
theorem storeAcc_completes :
    ∃ t, exec (storeInstr .acc m) s = .next t ∧ t = { (storeAddress m s).2 with mem := t.mem } ∧
      readByte t.mem (storeAddress m s).1 = s.acc ∧
      ∀ a, a ≠ (storeAddress m s).1 → readByte t.mem a = readByte s.mem a := by
  have hstate := storeAddress_state s .acc m
  refine ⟨_, exec_storeInstr_acc s m, rfl, ?_, fun a ha => ?_⟩
  · rw [State.setMem_mem, readByte_writeByte_self, hstate, afterOperands_acc]
  · rw [State.setMem_mem, readByte_writeByte_other _ _ ha, hstate, afterOperands_mem]

/-- What a Store of MAR leaves: MAR at the address and its successor, all other bytes, all registers but PC. -/
theorem storeMar_completes :
    ∃ t, exec (storeInstr .mar m) s = .next t ∧ t = { (storeAddress m s).2 with mem := t.mem } ∧
      readByte t.mem (storeAddress m s).1 = highByte s.mar ∧
      readByte t.mem (addrSucc (storeAddress m s).1) = lowByte s.mar ∧
      ∀ a, a ≠ (storeAddress m s).1 → a ≠ addrSucc (storeAddress m s).1 →
        readByte t.mem a = readByte s.mem a := by
  have hstate := storeAddress_state s .mar m
  refine ⟨_, exec_storeInstr_mar s m, rfl, ?_, ?_, fun a ha ha' => ?_⟩
  · rw [State.setMem_mem, readByte_writeWord_high, hstate, afterOperands_mar]
  · rw [State.setMem_mem, readByte_writeWord_low, hstate, afterOperands_mar]
  · rw [State.setMem_mem, readByte_writeWord_other _ _ ha ha', hstate, afterOperands_mem]

end

/-- Settles O47: a Store of ACC by each method, and R86 for the three opcode bytes. -/
theorem storeAccCompletes : Obligations.StoreAccCompletes := fun s =>
  ⟨storeAcc_completes s .address, storeAcc_completes s .constant, storeAcc_completes s .indirect,
    step_of_opcode .storeAccAddr, step_of_opcode .storeCAccAddr, step_of_opcode .storeAccInd⟩

/-- Settles O48: a Store of MAR by each method, and R86 for the three opcode bytes. -/
theorem storeMarCompletes : Obligations.StoreMarCompletes := fun s =>
  ⟨storeMar_completes s .address, storeMar_completes s .constant, storeMar_completes s .indirect,
    step_of_opcode .storeMarAddr, step_of_opcode .storeCMarAddr, step_of_opcode .storeMarInd⟩

/-- Settles O50: the operand is fetched before the write, so the write is at the address that stood there. -/
theorem storeOverItsOwnBytesExecutesAsFetched : Obligations.StoreOverItsOwnBytesExecutesAsFetched := by
  intro s hrun hop hown
  have haddr : (storeAddress .address (fetchOpcode s)).1 = s.pc + 1 := hown
  obtain ⟨t, hexec, ht, hself, hother⟩ := storeAcc_completes (fetchOpcode s) .address
  rw [haddr] at hself hother
  have hpc : t.pc = s.pc + 3 := by
    rw [ht, storeAddress_state _ .acc, afterOperands_pc, fetchOpcode_pc, addrSucc, BitVec.add_assoc]
    rfl
  exact ⟨t, (step_of_opcode .storeAccAddr hrun hop).trans hexec, hself, hpc, hother⟩

/-- Settles O24: the Store leaves PC at the byte it has written and the machine Running, so the next cycle decodes that
byte. -/
theorem storedCodeIsFetchedByTheNextStep : Obligations.StoredCodeIsFetchedByTheNextStep := by
  intro s hrun hop hmar
  obtain ⟨t, hexec, ht, hself, -⟩ := storeAcc_completes (fetchOpcode s) .indirect
  have hrun' : t.runstate = .running := by
    rw [ht]
    exact hrun
  have hop' : t.opcode = s.acc := by
    have hpc : t.pc = (storeAddress .indirect (fetchOpcode s)).1 := by
      rw [ht]
      exact hmar.symm
    rw [State.opcode, hpc, hself, fetchOpcode_acc]
  refine ⟨t, (step_of_opcode .storeAccInd hrun hop).trans hexec, hrun', hop', fun i hdec => ?_, fun b hdec => ?_⟩
  · rw [← hop'] at hdec
    exact (step_running hrun').trans (cycle_ok hdec)
  · rw [← hop'] at hdec
    exact ⟨_, step_illegal hrun' hdec, rfl⟩

end Sys2Proof.Machine

namespace Sys2Proof.Machine

/-! ### The 16-bit access as two bytes (spec/20_memory.md sections 1 to 4) -/

section
variable (m : Memory) (a v : Word)

theorem add_one_ne_self : a + 1 ≠ a := addrSucc_ne a

theorem readByte_writeWord_succ : readByte (writeWord m a v) (a + 1) = lowByte v := readByte_writeWord_low m a v

/-- The word read one address up sees the low half of the word written. -/
theorem readWord_writeWord_succ :
    readWord (writeWord m a v) (a + 1) = joinBytes (lowByte v) (readByte m (a + 2)) := by
  have hnext : addrSucc (a + 1) = a + 2 := addrSucc_addrSucc a
  have hne : a + 2 ≠ a := by bv_omega
  have hne' : a + 2 ≠ addrSucc a := by rw [addrSucc]; bv_omega
  rw [readWord, readByte_writeWord_succ, hnext, readByte_writeWord_other m v hne hne']

/-- The word read one address down sees the high half of the word written. -/
theorem readWord_writeWord_pred :
    readWord (writeWord m a v) (a - 1) = joinBytes (readByte m (a - 1)) (highByte v) := by
  have hnext : addrSucc (a - 1) = a := BitVec.sub_add_cancel a 1
  have hne : a - 1 ≠ a := by bv_omega
  have hne' : a - 1 ≠ addrSucc a := by rw [addrSucc]; bv_omega
  rw [readWord, hnext, readByte_writeWord_high, readByte_writeWord_other m v hne hne']

/-- Two byte writes at an address and its successor read back as the word of the two. -/
theorem readWord_writeByte_writeByte (h l : Byte) :
    readWord (writeByte (writeByte m a h) (a + 1) l) a = joinBytes h l := by
  have hne : a ≠ a + 1 := (add_one_ne_self a).symm
  rw [readWord, addrSucc, readByte_writeByte_self, readByte_writeByte_other _ l hne, readByte_writeByte_self]

end

/-- Settles O9: a word is written high byte first, so reads of its two addresses and of the overlapping words are the
read-after-write laws of the two bytes. -/
theorem wordAccessesSeePlainBytes : Obligations.WordAccessesSeePlainBytes := fun m a v =>
  ⟨readByte_writeWord_high m a v, readByte_writeWord_succ m a v, fun _ => readByte_writeWord_other m v,
    readWord_writeWord_self m a v, readWord_writeWord_succ m a v, readWord_writeWord_pred m a v,
    readWord_writeByte_writeByte m a, readByte_writeWord_high m 0xFFFF v, readByte_writeWord_succ m 0xFFFF v⟩

/-! ### Memory is its bytes (spec/10_state.md section 6) -/

section
variable {m m' : Memory} {c c' : Host.Cell}

theorem readCell_cons_self : readCell (c :: m) c.1 = c.2 := if_pos rfl

/-- A listed cell is not 0x00, so a memory that reads like it is not wholly above it. -/
theorem not_above_of_reads_alike (hwf : Memory.wf (c :: m) = true)
    (hread : ∀ a < memorySize, readCell (c :: m) a = readCell m' a) : ¬ Memory.above c.1 m' = true := by
  intro habove
  obtain ⟨hrange, hlisted, -, -⟩ := wf_cons.mp hwf
  have hcell := hread c.1 hrange
  rw [readCell_cons_self, readCell_of_above habove le_rfl] at hcell
  exact hlisted hcell

/-- A canonical list lies above every address below its head's. -/
theorem above_cons_of_lt (hwf : Memory.wf (c :: m) = true) {a : Nat} (ha : a < c.1) :
    Memory.above a (c :: m) = true := by
  obtain ⟨-, -, habove, -⟩ := wf_cons.mp hwf
  simp [Memory.above, ha, above_of_le habove ha.le]

/-- Canonical lists with the same head read alike only if their tails do: at and below the head both tails read 0x00. -/
theorem tails_read_alike (hwf : Memory.wf (c :: m) = true) (hwf' : Memory.wf (c :: m') = true)
    (hread : ∀ a < memorySize, readCell (c :: m) a = readCell (c :: m') a) :
    ∀ a < memorySize, readCell m a = readCell m' a := by
  intro a ha
  obtain ⟨-, -, habove, -⟩ := wf_cons.mp hwf
  obtain ⟨-, -, habove', -⟩ := wf_cons.mp hwf'
  by_cases hle : a ≤ c.1
  · rw [readCell_of_above habove hle, readCell_of_above habove' hle]
  · have hne : c.1 ≠ a := by omega
    simpa [readCell, hne] using hread a ha

/-- Canonical lists that read alike begin with the same cell. -/
theorem heads_eq_of_reads_alike (hwf : Memory.wf (c :: m) = true) (hwf' : Memory.wf (c' :: m') = true)
    (hread : ∀ a < memorySize, readCell (c :: m) a = readCell (c' :: m') a) : c = c' := by
  have hle : c'.1 ≤ c.1 := not_lt.mp fun hlt =>
    not_above_of_reads_alike hwf hread (above_cons_of_lt hwf' hlt)
  have hle' : c.1 ≤ c'.1 := not_lt.mp fun hlt =>
    not_above_of_reads_alike hwf' (fun a ha => (hread a ha).symm) (above_cons_of_lt hwf hlt)
  have hkey : c.1 = c'.1 := le_antisymm hle' hle
  obtain ⟨hrange, -⟩ := wf_cons.mp hwf
  have hbyte := hread c.1 hrange
  rw [readCell_cons_self, hkey, readCell_cons_self] at hbyte
  exact Prod.ext hkey hbyte

theorem eq_of_reads_alike (hwf : Memory.wf m = true) (hwf' : Memory.wf m' = true)
    (hread : ∀ a < memorySize, readCell m a = readCell m' a) : m = m' := by
  induction m generalizing m' with
  | nil =>
    cases m' with
    | nil => rfl
    | cons c' m' => exact absurd rfl (not_above_of_reads_alike hwf' fun a ha => (hread a ha).symm)
  | cons c m ih =>
    cases m' with
    | nil => exact absurd rfl (not_above_of_reads_alike hwf hread)
    | cons c' m' =>
      obtain rfl := heads_eq_of_reads_alike hwf hwf' hread
      obtain ⟨-, -, -, hwfTail⟩ := wf_cons.mp hwf
      obtain ⟨-, -, -, hwfTail'⟩ := wf_cons.mp hwf'
      rw [ih hwfTail hwfTail' (tails_read_alike hwf hwf' hread)]

end

/-- Settles O10: the two lists are compared cell by cell, the addresses in range being the words. -/
theorem canonicalMemoriesThatReadAlikeAreEqual : Obligations.CanonicalMemoriesThatReadAlikeAreEqual := by
  intro m m' hwf hwf' hread
  refine eq_of_reads_alike hwf hwf' fun a ha => ?_
  have hword := hread (BitVec.ofNat 16 a)
  have hkey : (BitVec.ofNat 16 a).toNat = a := Nat.mod_eq_of_lt ha
  rwa [readByte, readByte, hkey] at hword

section
variable {m : Memory} (a : Word)

theorem writeByte_readByte (hwf : Memory.wf m = true) : writeByte m a (readByte m a) = m := by
  refine canonicalMemoriesThatReadAlikeAreEqual _ _ (wf_writeByte _ _ hwf) hwf fun b => ?_
  rw [readByte_writeByte]
  split
  case isTrue hb => rw [hb]
  case isFalse => rfl

theorem writeWord_readWord (hwf : Memory.wf m = true) : writeWord m a (readWord m a) = m := by
  rw [writeWord, readWord, highByte_joinBytes, lowByte_joinBytes, writeByte_readByte a hwf,
    writeByte_readByte (addrSucc a) hwf]

end

/-- Settles O11: the write keeps the memory canonical and every byte, and a word is two bytes. -/
theorem writingTheValuePresentChangesNothing : Obligations.WritingTheValuePresentChangesNothing := fun _ a hwf =>
  ⟨writeByte_readByte a hwf, writeWord_readWord a hwf⟩

/-! ### The fetches (spec/40_fetch_cycle.md section 1) -/

section
variable (s : State)

theorem fetchByte_state_eq : (fetchByte s).2 = { s with pc := s.pc + 1 } := rfl

theorem fetchWord_state_eq : (fetchWord s).2 = { s with pc := s.pc + 2 } := by
  rw [fetchWord_state, addrSucc_addrSucc]
  rfl

end

/-- Settles O12: a word fetch is two byte fetches, so PC moves by two and the first byte is the high one. -/
theorem fetchesReadTheStreamAndAdvancePc : Obligations.FetchesReadTheStreamAndAdvancePc := by
  refine fun s => ⟨fetchByte_value s, fetchByte_state_eq s, ?_, fetchWord_state_eq s, ?_, fun htop => ⟨?_, ?_⟩⟩
  · rw [fetchWord_value, toNat_readWord, addrSucc]
  · rw [fetchWord_state_eq, BitVec.toNat_add]
    rfl
  · rw [fetchByte_state_eq, htop]
    rfl
  · rw [fetchWord_state_eq, htop]
    rfl

/-! ### Reset (spec/10_state.md section 8) and run (spec/40_fetch_cycle.md section 4) -/

/-- A constructed state is the reset state with the image in memory, and the image fits. -/
theorem construct_next_cases {image : List Byte} {s : State} (h : construct image = .next s) :
    image.length ≤ 65536 ∧ s = State.reset.setMem (imageFrom 0 image) := by
  unfold construct at h
  split at h
  case isTrue hfits =>
    cases h
    exact ⟨hfits, rfl⟩
  case isFalse => cases h

/-- Settles O23: the reset state is Running without a record, and the memory of an image that fits is canonical. -/
theorem resetStateIsConsistent : Obligations.ResetStateIsConsistent := by
  refine ⟨(inv_iff_of_running rfl).mpr ⟨rfl, rfl⟩, fun image s h => ?_⟩
  obtain ⟨hfits, rfl⟩ := construct_next_cases h
  exact (inv_iff_of_running rfl).mpr ⟨wf_imageFrom 0 image (by rwa [Nat.zero_add]), rfl⟩

/-- Settles O27: construction sets the memory of the reset state only, and not beyond 65536 bytes. -/
theorem resetValuesAndOversizeImage : Obligations.ResetValuesAndOversizeImage := by
  refine ⟨fun image s h => ?_, construct_of_length_le (Nat.zero_le 65536), fun image hlong => ?_⟩
  · obtain ⟨-, rfl⟩ := construct_next_cases h
    exact ⟨rfl, rfl, rfl, rfl, rfl, rfl⟩
  · exact if_neg (not_le.mpr hlong)

section
variable (M : Host.Core) {s t : M.State}

/-! The host's iteration of a machine's step. -/

theorem host_run_of_step (hstep : M.step s = .next t) (k : Nat) : M.run (k + 1) s = M.run k t := by
  rw [Host.Core.run, hstep]

theorem host_run_of_no_step (hnone : ∀ u, M.step s ≠ .next u) (k : Nat) : M.run (k + 1) s ≠ .next t := by
  rw [Host.Core.run]
  cases hstep : M.step s with
  | next u => exact absurd hstep (hnone u)
  | fault f => nofun
  | refused f => nofun

end

/-! The termination reason by run state. -/

section
variable {s t : State} {r : TerminationReason}

theorem terminationReason_running (hrun : s.runstate = .running) : terminationReason s = none := by
  simp [terminationReason, hrun]

theorem terminationReason_halted (hrun : s.runstate = .halted) : terminationReason s = some .halted := by
  simp [terminationReason, hrun]

theorem terminationReason_of_faulted (hrun : s.runstate = .faulted) :
    terminationReason s = s.fault.map fun r => .faulted r.opcode r.pc := by
  simp [terminationReason, hrun]

theorem terminationReason_eq_halted_iff : terminationReason s = some .halted ↔ s.runstate = .halted := by
  cases hrun : s.runstate with
  | running => simp [terminationReason_running hrun]
  | halted => simp [terminationReason_halted hrun]
  | faulted => simp [terminationReason_of_faulted hrun]

theorem terminationReason_eq_faulted_iff (op : Byte) (p : Word) :
    terminationReason s = some (.faulted op p) ↔
      s.runstate = .faulted ∧ s.fault = some { opcode := op, pc := p } := by
  cases hrun : s.runstate with
  | running => simp [terminationReason_running hrun]
  | halted => simp [terminationReason_halted hrun]
  | faulted =>
    rw [terminationReason_of_faulted hrun]
    cases hrec : s.fault with
    | none => simp
    | some rec => cases rec; simp

/-- A consistent Faulted state ends its run with (IR, PC), which its record holds. -/
theorem terminationReason_of_inv_faulted (hinv : s.inv = true) (hrun : s.runstate = .faulted) :
    terminationReason s = some (.faulted s.ir s.pc) := by
  obtain ⟨-, hrec, -⟩ := (inv_iff_of_faulted hrun).mp hinv
  exact terminationReason_faulted hrun hrec

theorem exists_terminationReason_iff (hinv : s.inv = true) :
    (∃ r, terminationReason s = some r) ↔ s.runstate ≠ .running := by
  cases hrun : s.runstate with
  | running => simp [terminationReason_running hrun]
  | halted => simp [terminationReason_halted hrun]
  | faulted => simp [terminationReason_of_inv_faulted hinv hrun]

/-! `run` and the host's iteration of `step`, case by case of what the state and its step are. -/

theorem runWithin_of_reason (hr : terminationReason s = some r) (n : Nat) : runWithin n s = .ended r s := by
  unfold runWithin
  simp [hr]

theorem runWithin_zero (hr : terminationReason s = none) : runWithin 0 s = .outOfFuel s := by
  simp [runWithin, hr]

theorem runWithin_of_no_step (hr : terminationReason s = none) (hnone : ∀ u, step s ≠ .next u) (n : Nat) :
    runWithin (n + 1) s = .noStep s := by
  cases hstep : step s with
  | next u => exact absurd hstep (hnone u)
  | fault f => simp [runWithin, hr, hstep]
  | refused f => simp [runWithin, hr, hstep]

theorem core_run_zero : Host.Core.run core 0 s = .next s := rfl

theorem core_run_of_step (hstep : step s = .next t) (k : Nat) :
    Host.Core.run core (k + 1) s = Host.Core.run core k t :=
  host_run_of_step core hstep k

theorem core_run_of_no_step (hnone : ∀ u, step s ≠ .next u) (k : Nat) : Host.Core.run core (k + 1) s ≠ .next t :=
  host_run_of_no_step core hnone k

/-- A state with a reason has no step. -/
theorem step_ne_next_of_reason (hr : terminationReason s = some r) : step s ≠ .next t := by
  refine step_ne_next_of_not_running fun hrun => ?_
  rw [terminationReason_running hrun] at hr
  cases hr

/-- From a state without a step the iteration of `step` reaches that state only. -/
theorem exists_core_run_of_no_step (hnone : ∀ u, step s ≠ .next u) (n : Nat) :
    (∃ k, k ≤ n ∧ Host.Core.run core k s = .next t ∧ terminationReason t = some r) ↔
      t = s ∧ terminationReason s = some r := by
  constructor
  · rintro ⟨k, -, hrun, hreason⟩
    cases k with
    | zero =>
      cases hrun
      exact ⟨rfl, hreason⟩
    | succ k => exact absurd hrun (core_run_of_no_step hnone k)
  · rintro ⟨rfl, hreason⟩
    exact ⟨0, Nat.zero_le n, core_run_zero, hreason⟩

/-- From a state without a reason the iteration reaches one that has a reason through its step. -/
theorem exists_core_run_of_step {u : State} (hr : terminationReason s = none) (hstep : step s = .next u) (n : Nat) :
    (∃ k, k ≤ n + 1 ∧ Host.Core.run core k s = .next t ∧ terminationReason t = some r) ↔
      ∃ k, k ≤ n ∧ Host.Core.run core k u = .next t ∧ terminationReason t = some r := by
  constructor
  · rintro ⟨k, hk, hrun, hreason⟩
    cases k with
    | zero =>
      cases hrun
      rw [hr] at hreason
      cases hreason
    | succ k => exact ⟨k, Nat.le_of_succ_le_succ hk, core_run_of_step hstep k ▸ hrun, hreason⟩
  · rintro ⟨k, hk, hrun, hreason⟩
    exact ⟨k + 1, Nat.succ_le_succ hk, (core_run_of_step hstep k).trans hrun, hreason⟩

theorem runWithin_ended_iff_of_reason {r' : TerminationReason} (hr : terminationReason s = some r') (n : Nat) :
    runWithin n s = .ended r t ↔
      ∃ k, k ≤ n ∧ Host.Core.run core k s = .next t ∧ terminationReason t = some r := by
  rw [runWithin_of_reason hr, exists_core_run_of_no_step fun _ => step_ne_next_of_reason hr, hr]
  simp [and_comm, eq_comm]

theorem runWithin_ended_iff (n : Nat) :
    runWithin n s = .ended r t ↔
      ∃ k, k ≤ n ∧ Host.Core.run core k s = .next t ∧ terminationReason t = some r := by
  induction n generalizing s with
  | zero =>
    cases hr : terminationReason s with
    | some r' => exact runWithin_ended_iff_of_reason hr _
    | none =>
      simp only [runWithin_zero hr, Nat.le_zero, exists_eq_left, core_run_zero]
      refine ⟨nofun, ?_⟩
      rintro ⟨hrun, hreason⟩
      cases hrun
      rw [hr] at hreason
      cases hreason
  | succ n ih =>
    cases hr : terminationReason s with
    | some r' => exact runWithin_ended_iff_of_reason hr _
    | none =>
      by_cases hstep : ∃ u, step s = .next u
      · obtain ⟨u, hu⟩ := hstep
        obtain ⟨hrun, -⟩ := step_next_cases hu
        rw [runWithin_succ_of_step hrun hu, ih, exists_core_run_of_step hr hu]
      · have hnone : ∀ u, step s ≠ .next u := fun u hu => hstep ⟨u, hu⟩
        rw [runWithin_of_no_step hr hnone, exists_core_run_of_no_step hnone, hr]
        simp

end

/-- Settles O28: the reason is read off the run state and the record, and `run` follows the iteration of `step`, cycle
by cycle, until there is a reason. -/
theorem runReturnsWhenTheStateHasEnded : Obligations.RunReturnsWhenTheStateHasEnded :=
  ⟨fun _ => ⟨terminationReason_running, terminationReason_eq_halted_iff, terminationReason_eq_faulted_iff,
    exists_terminationReason_iff, terminationReason_of_inv_faulted⟩, fun n _ _ _ => runWithin_ended_iff n⟩

end Sys2Proof.Machine

namespace Sys2Proof.Machine

/-! ### The alu (spec/41_mathematical.md sections 1 and 2) -/

section
variable (a b v : Word)

/-! The halves of a word under the operations of the alu. -/

theorem toNat_lowByte : (lowByte v).toNat = v.toNat % 256 := by
  rw [lowByte, ← BitVec.setWidth_eq_extractLsb' (by omega), BitVec.toNat_setWidth]

theorem highByte_and : highByte (a &&& b) = highByte a &&& highByte b := BitVec.extractLsb'_and

theorem highByte_or : highByte (a ||| b) = highByte a ||| highByte b := BitVec.extractLsb'_or

theorem highByte_xor : highByte (a ^^^ b) = highByte a ^^^ highByte b := BitVec.extractLsb'_xor

theorem lowByte_and : lowByte (a &&& b) = lowByte a &&& lowByte b := BitVec.extractLsb'_and

theorem lowByte_or : lowByte (a ||| b) = lowByte a ||| lowByte b := BitVec.extractLsb'_or

theorem lowByte_xor : lowByte (a ^^^ b) = lowByte a ^^^ lowByte b := BitVec.extractLsb'_xor

theorem lowByte_add : lowByte (a + b) = lowByte a + lowByte b := by
  apply BitVec.eq_of_toNat_eq
  simp only [toNat_lowByte, BitVec.toNat_add]
  omega

theorem lowByte_sub : lowByte (a - b) = lowByte a - lowByte b := by
  apply BitVec.eq_of_toNat_eq
  simp only [toNat_lowByte, BitVec.toNat_sub]
  omega

theorem lowByte_not : lowByte (~~~a) = ~~~lowByte a := by
  apply BitVec.eq_of_toNat_eq
  simp only [toNat_lowByte, BitVec.toNat_not]
  omega

/-- R128, the width law: the low byte of a result is the 8-bit function of the low bytes. -/
theorem lowByte_alu (c : Config) (f : MathFunc) : lowByte (alu c f a b) = alu8 c f (lowByte a) (lowByte b) := by
  cases f with
  | and => exact lowByte_and a b
  | or => exact lowByte_or a b
  | xor => exact lowByte_xor a b
  | add => exact lowByte_add a b
  | sub => cases horder : c.subOrder <;> simp [alu, alu8, aluSub, horder, lowByte_sub]
  | inc => exact lowByte_add a 1
  | dec => exact lowByte_sub a 1
  | not => exact lowByte_not a

end

/-- Settles O30: the width law. -/
theorem truncationCommutesWithTheAlu : Obligations.TruncationCommutesWithTheAlu := fun c f a b => lowByte_alu a b c f

/-- Settles O29: the operations of the alu are the library's on 16 bits. -/
theorem aluComputesTheEightFunctions : Obligations.AluComputesTheEightFunctions := by
  intro a b
  have hsub : ((a - b).toNat : Int) = ((a.toNat : Int) - b.toNat) % 65536 := by
    rw [BitVec.toNat_sub]
    omega
  have hdec : ((a - 1).toNat : Int) = ((a.toNat : Int) - 1) % 65536 := by
    have hone : (1 : Word).toNat = 1 := rfl
    rw [BitVec.toNat_sub, hone]
    omega
  exact ⟨fun _ => BitVec.getLsbD_and, fun _ => BitVec.getLsbD_or, fun _ => BitVec.getLsbD_xor,
    BitVec.toNat_add a b, hsub, BitVec.toNat_add a 1, hdec, BitVec.toNat_not⟩

/-! ### Widening (spec/41_mathematical.md section 1, R126) -/

section
variable (v : Byte)

theorem widenByte_zero_eq_joinBytes : widenByte .zero v = joinBytes 0 v := by
  apply BitVec.eq_of_toNat_eq
  rw [toNat_joinBytes, widenByte, BitVec.toNat_setWidth]
  have hzero : (0 : Byte).toNat = 0 := rfl
  omega

theorem toNat_widenByte_zero : (widenByte .zero v).toNat = v.toNat := by
  rw [widenByte_zero_eq_joinBytes, toNat_joinBytes]
  exact Nat.zero_add _

theorem highByte_widenByte_zero : highByte (widenByte .zero v) = 0 := by
  rw [widenByte_zero_eq_joinBytes, highByte_joinBytes]

end

/-- Settles O33: the two byte Targets resolve to the zero extension of their byte. -/
theorem byteOperandsResolveZeroExtended : Obligations.ByteOperandsResolveZeroExtended := fun s =>
  ⟨toNat_widenByte_zero s.acc, rfl, rfl, toNat_widenByte_zero (readByte s.mem s.mar), rfl, rfl⟩

section
variable (c c' : Config) (t : Target) (s : State)

/-! What of a resolved operand does not depend on the parameters. -/

theorem resolve_place_eq : (resolve c t s).place = (resolve c' t s).place := by
  cases t <;> rfl

theorem resolve_state_eq : (resolve c t s).state = (resolve c' t s).state := by
  rw [resolve_state, resolve_state]

theorem lowByte_resolve_value_eq : lowByte (resolve c t s).value = lowByte (resolve c' t s).value := by
  cases t with
  | indirect => rw [resolve_indirect, resolve_indirect, lowByte_widenByte, lowByte_widenByte]
  | acc => rw [resolve_acc, resolve_acc, lowByte_widenByte, lowByte_widenByte]
  | mar => rfl
  | memory => rfl

theorem resolve_eq_of_word (h : byteTarget t = false) : resolve c t s = resolve c' t s := by
  cases t with
  | indirect => cases h
  | acc => cases h
  | mar => rfl
  | memory => rfl

/-- An 8-bit dst takes the low byte of the result. -/
theorem writeDst_congr_of_byte (h : byteTarget t = true) {r r' : Word} (hlow : lowByte r = lowByte r') (u : State) :
    writeDst (resolve c t s).place r u = writeDst (resolve c t s).place r' u := by
  cases t with
  | indirect => rw [resolve_indirect, writeDst_byteAt, writeDst_byteAt, hlow]
  | acc => rw [resolve_acc, writeDst_acc, writeDst_acc, hlow]
  | mar => cases h
  | memory => cases h

end

section
variable {c c' : Config} (hsub : c.subOrder = c'.subOrder) (f : MathFunc)
include hsub

/-! Of the parameters the alu reads the order of SUB only. -/

theorem alu_eq_of_subOrder (a b : Word) : alu c f a b = alu c' f a b := by
  cases f <;> simp [alu, hsub]

theorem alu8_eq_of_subOrder (a b : Byte) : alu8 c f a b = alu8 c' f a b := by
  cases f <;> simp [alu8, hsub]

/-- At an 8-bit dst the parameters matter through the order of SUB only: the low bytes of the operands are the bytes
themselves, whatever the widening. -/
theorem mathResult_eq_of_byte_dst (src dst : Target) (hdst : byteTarget dst = true) (s : State) :
    mathResult c f src dst s = mathResult c' f src dst s := by
  have hstart := resolve_state_eq c c' src s
  rw [mathResult, mathResult, ← hstart, ← resolve_place_eq c c' dst, ← resolve_state_eq c c' dst]
  refine writeDst_congr_of_byte c dst _ hdst ?_ _
  rw [lowByte_alu, lowByte_alu, alu8_eq_of_subOrder hsub, lowByte_resolve_value_eq c c' src,
    lowByte_resolve_value_eq c c' dst]

/-- Between 16-bit Targets nothing is widened. -/
theorem mathResult_eq_of_word_targets (src dst : Target) (hsrc : byteTarget src = false)
    (hdst : byteTarget dst = false) (s : State) : mathResult c f src dst s = mathResult c' f src dst s := by
  rw [mathResult, mathResult, resolve_eq_of_word c c' src s hsrc, resolve_eq_of_word c c' dst _ hdst,
    alu_eq_of_subOrder hsub]

end

section
variable (c c' : Config) (src : Target) (s : State)

theorem mathResult_not_mar :
    mathResult c .not src .mar s = (resolve c src s).state.setMar (~~~(resolve c src s).value) := rfl

theorem mathResult_not_memory :
    mathResult c .not src .memory s = (fetchWord (resolve c src s).state).2.setMem
      (writeWord (fetchWord (resolve c src s).state).2.mem (fetchWord (resolve c src s).state).1
        (~~~(resolve c src s).value)) := rfl

/-- A 16-bit dst of NOT holds all bits of the src value. -/
theorem resolve_value_eq_of_not_eq {dst : Target} (hdst : byteTarget dst = false)
    (h : mathResult c .not src dst s = mathResult c' .not src dst s) :
    (resolve c src s).value = (resolve c' src s).value := by
  cases dst with
  | indirect => cases hdst
  | acc => cases hdst
  | mar =>
    rw [mathResult_not_mar, mathResult_not_mar] at h
    exact BitVec.not_inj.mp (congrArg State.mar h)
  | memory =>
    rw [mathResult_not_memory, mathResult_not_memory, resolve_state_eq c c' src s] at h
    have hword := congrArg (fun t => readWord t.mem (fetchWord (resolve c' src s).state).1) h
    simp only [State.setMem_mem, readWord_writeWord_self] at hword
    exact BitVec.not_inj.mp hword

end

/-- A state that tells the two widenings apart: ACC and the byte at MAR have bit 7 set. -/
def negativeBytes : State := { State.reset with acc := 0x80, mem := [(0, 0x80)] }

theorem resolve_negativeBytes (c : Config) {t : Target} (h : byteTarget t = true) :
    (resolve c t negativeBytes).value = widenByte c.widen 0x80 := by
  cases t with
  | indirect => rfl
  | acc => rfl
  | mar => cases h
  | memory => cases h

/-- Settles O31: at an 8-bit dst only the low bytes count, between 16-bit Targets nothing is widened, and NOT of a byte
with bit 7 set shows the difference in the high byte of a 16-bit dst. -/
theorem wideningShowsOnlyFromByteToWord : Obligations.WideningShowsOnlyFromByteToWord := by
  refine ⟨fun o w f src dst s hnot => ?_, fun o w src dst hsrc hdst => ⟨negativeBytes, fun h => ?_⟩⟩
  · have hsub : (Config.mk o .zero w).subOrder = (Config.mk o .sign w).subOrder := rfl
    cases hdst : byteTarget dst with
    | true => exact mathResult_eq_of_byte_dst hsub f src dst hdst s
    | false =>
      have hsrc : byteTarget src = false := by simpa [hdst] using hnot
      exact mathResult_eq_of_word_targets hsub f src dst hsrc hdst s
  · have hvalue := resolve_value_eq_of_not_eq _ _ src negativeBytes hdst h
    rw [resolve_negativeBytes _ hsrc, resolve_negativeBytes _ hsrc] at hvalue
    have hne : widenByte .zero 0x80 ≠ widenByte .sign 0x80 := by decide
    exact hne hvalue

end Sys2Proof.Machine

namespace Sys2Proof.Machine

/-! ### The eight Mathematical instructions (spec/41_mathematical.md section 4) -/

section
variable (s : State) (f : MathFunc)

/-! The instruction between given Targets, written out: at an 8-bit dst by the width law, at a 16-bit dst with the byte
operands zero-extended. -/

theorem exec_math_acc_acc :
    exec (mathInstr f .acc .acc) s = .next { s with acc := alu8 config f s.acc s.acc } := by
  rw [exec_mathInstr, mathResult, resolve_acc, resolve_acc, writeDst_acc, lowByte_alu, lowByte_widenByte]
  rfl

theorem exec_math_mar_acc :
    exec (mathInstr f .mar .acc) s = .next { s with acc := alu8 config f (lowByte s.mar) s.acc } := by
  rw [exec_mathInstr, mathResult, resolve_mar, resolve_acc, writeDst_acc, lowByte_alu, lowByte_widenByte]
  rfl

theorem exec_math_acc_mar :
    exec (mathInstr f .acc .mar) s = .next { s with mar := alu config f (widenByte .zero s.acc) s.mar } :=
  exec_mathInstr s f .acc .mar

theorem exec_math_mar_mar :
    exec (mathInstr f .mar .mar) s = .next { s with mar := alu config f s.mar s.mar } :=
  exec_mathInstr s f .mar .mar

theorem exec_math_indirect_indirect :
    exec (mathInstr f .indirect .indirect) s = .next { s with
      mem := writeByte s.mem s.mar (alu8 config f (readByte s.mem s.mar) (readByte s.mem s.mar)) } := by
  rw [exec_mathInstr, mathResult, resolve_indirect, resolve_indirect, writeDst_byteAt, lowByte_alu, lowByte_widenByte]
  rfl

theorem exec_math_acc_memory :
    exec (mathInstr f .acc .memory) s = .next { (fetchWord s).2 with
      mem := writeWord s.mem (fetchWord s).1
        (alu config f (widenByte .zero s.acc) (readWord s.mem (fetchWord s).1)) } :=
  exec_mathInstr s f .acc .memory

theorem exec_math_indirect_memory :
    exec (mathInstr f .indirect .memory) s = .next { (fetchWord s).2 with
      mem := writeWord s.mem (fetchWord s).1
        (alu config f (widenByte .zero (readByte s.mem s.mar)) (readWord s.mem (fetchWord s).1)) } :=
  exec_mathInstr s f .indirect .memory

theorem exec_math_memory_memory :
    exec (mathInstr f .memory .memory) s = .next { (fetchWord (fetchWord s).2).2 with
      mem := writeWord s.mem (fetchWord (fetchWord s).2).1
        (alu config f (readWord s.mem (fetchWord s).1) (readWord s.mem (fetchWord (fetchWord s).2).1)) } :=
  exec_mathInstr s f .memory .memory

end

section
variable (m : Memory) (a : Word) (v : Byte)

/-! A word whose operand was a byte, in its two halves. -/

theorem highByte_widen_or (w : Word) : highByte (widenByte .zero v ||| w) = highByte w := by
  rw [highByte_or, highByte_widenByte_zero]
  exact BitVec.zero_or

theorem lowByte_widen_or (w : Word) : lowByte (widenByte .zero v ||| w) = v ||| lowByte w := by
  rw [lowByte_or, lowByte_widenByte]

theorem highByte_widen_xor (w : Word) : highByte (widenByte .zero v ^^^ w) = highByte w := by
  rw [highByte_xor, highByte_widenByte_zero]
  exact BitVec.zero_xor

theorem lowByte_widen_xor (w : Word) : lowByte (widenByte .zero v ^^^ w) = v ^^^ lowByte w := by
  rw [lowByte_xor, lowByte_widenByte]

theorem highByte_widen_and (w : Word) : highByte (widenByte .zero v &&& w) = 0x00 := by
  rw [highByte_and, highByte_widenByte_zero]
  exact BitVec.zero_and

theorem lowByte_widen_and (w : Word) : lowByte (widenByte .zero v &&& w) = v &&& lowByte w := by
  rw [lowByte_and, lowByte_widenByte]

theorem not_widen : ~~~widenByte .zero v = joinBytes 0xFF (~~~v) := by
  rw [widenByte_zero_eq_joinBytes, joinBytes, BitVec.not_append]
  rfl

theorem highByte_readWord : highByte (readWord m a) = readByte m a := highByte_joinBytes _ _

theorem lowByte_readWord : lowByte (readWord m a) = readByte m (addrSucc a) := lowByte_joinBytes _ _

theorem toNat_eq_halves (w : Word) : w.toNat = (highByte w).toNat * 256 + (lowByte w).toNat := by
  rw [← toNat_joinBytes, joinBytes_high_low]

end

/-- Settles O35: `x & x = x`, and a zero-extended operand clears the high byte. -/
theorem andWritesTheConjunction : Obligations.AndWritesTheConjunction := by
  intro s
  have hacc := exec_math_acc_acc s .and
  have hmar := exec_math_mar_mar s .and
  have hind := exec_math_indirect_indirect s .and
  rw [alu8, BitVec.and_self] at hacc hind
  rw [alu, BitVec.and_self] at hmar
  refine ⟨exec_mathInstr s .and, hacc, hmar, ⟨_, hind, rfl, fun a => ?_⟩, ⟨_, exec_math_acc_mar s .and, rfl, ?_⟩,
    ⟨_, exec_math_indirect_memory s .and, ?_⟩⟩
  · rw [readByte_writeByte]
    split
    case isTrue ha => rw [ha]
    case isFalse => rfl
  · rw [alu, toNat_eq_halves, highByte_widen_and, lowByte_widen_and]
    exact Nat.zero_add _
  · exact (readByte_writeWord_high _ _ _).trans (highByte_widen_and _ _)

/-- Settles O36: `x | x = x`, and a zero-extended operand leaves the high byte. -/
theorem orWritesTheDisjunction : Obligations.OrWritesTheDisjunction := by
  intro s
  have hacc := exec_math_acc_acc s .or
  have hmar := exec_math_mar_mar s .or
  rw [alu8, BitVec.or_self] at hacc
  rw [alu, BitVec.or_self] at hmar
  refine ⟨exec_mathInstr s .or, hacc, hmar,
    ⟨_, exec_math_acc_mar s .or, rfl, highByte_widen_or _ _, lowByte_widen_or _ _⟩,
    ⟨_, exec_math_acc_memory s .or, ?_, ?_⟩⟩
  · rw [readByte_writeWord_high, alu, highByte_widen_or, highByte_readWord]
  · rw [readByte_writeWord_low, alu, lowByte_widen_or, lowByte_readWord]

/-- Settles O37: `x ^ x = 0`, and a zero-extended operand leaves the high byte. -/
theorem xorWritesTheDifferenceBits : Obligations.XorWritesTheDifferenceBits := by
  intro s
  have hacc := exec_math_acc_acc s .xor
  have hmar := exec_math_mar_mar s .xor
  have hind := exec_math_indirect_indirect s .xor
  rw [alu8, BitVec.xor_self] at hacc hind
  rw [alu, BitVec.xor_self] at hmar
  exact ⟨exec_mathInstr s .xor, hacc, hmar,
    ⟨_, hind, rfl, readByte_writeByte_self s.mem s.mar 0x00, fun _ => readByte_writeByte_other s.mem 0x00⟩,
    ⟨_, exec_math_acc_mar s .xor, rfl, highByte_widen_xor _ _, lowByte_widen_xor _ _⟩⟩

/-- Settles O38: the sum at the width of the dst, the byte operand unsigned. -/
theorem addWritesTheSum : Obligations.AddWritesTheSum := by
  intro s
  refine ⟨exec_mathInstr s .add, ⟨_, exec_math_acc_acc s .add, rfl, ?_⟩, ⟨_, exec_math_acc_mar s .add, rfl, ?_⟩,
    ⟨_, exec_math_mar_acc s .add, rfl, ?_⟩⟩
  · rw [alu8, BitVec.toNat_add, two_mul]
  · rw [alu, BitVec.toNat_add, toNat_widenByte_zero]
  · rw [alu8, BitVec.toNat_add, toNat_lowByte, Nat.add_comm]

/-- Settles O39: `x - x = 0`, and the difference at the width of the dst, the byte operand unsigned. -/
theorem subWritesSrcMinusDst : Obligations.SubWritesSrcMinusDst := by
  intro s
  have hacc := exec_math_acc_acc s .sub
  have hmar := exec_math_mar_mar s .sub
  have hself (x : Byte) : alu8 config .sub x x = 0 := BitVec.sub_self x
  have hself' (x : Word) : alu config .sub x x = 0 := BitVec.sub_self x
  rw [hself] at hacc
  rw [hself'] at hmar
  refine ⟨exec_mathInstr s .sub, hacc, hmar, ⟨_, exec_math_acc_mar s .sub, rfl, ?_⟩,
    ⟨_, exec_math_mar_acc s .sub, rfl, ?_⟩⟩
  · have hdiff : alu config .sub (widenByte .zero s.acc) s.mar = widenByte .zero s.acc - s.mar := rfl
    rw [hdiff, BitVec.toNat_sub, toNat_widenByte_zero]
    omega
  · have hdiff : alu8 config .sub (lowByte s.mar) s.acc = lowByte s.mar - s.acc := rfl
    rw [hdiff, BitVec.toNat_sub, toNat_lowByte]
    omega

/-- Settles O40: the src plus 1 at the width of the dst; a byte plus 1 stays below 257, so nothing wraps in MAR. -/
theorem incWritesSrcPlusOne : Obligations.IncWritesSrcPlusOne := by
  intro s
  refine ⟨exec_mathInstr s .inc, exec_math_acc_acc s .inc, exec_math_mar_mar s .inc,
    ⟨_, exec_math_acc_mar s .inc, rfl, ?_⟩,
    ⟨_, exec_math_indirect_indirect s .inc, rfl, readByte_writeByte_self _ _ _,
      fun _ => readByte_writeByte_other _ _⟩, fun hsame => ⟨_, exec_math_memory_memory s .inc, ?_⟩⟩
  · have hone : (1 : Word).toNat = 1 := rfl
    rw [alu, BitVec.toNat_add, toNat_widenByte_zero, hone]
    omega
  · rw [hsame, readWord_writeWord_self, alu]

/-- Settles O41: the src minus 1 at the width of the dst; only a src of 0 wraps. -/
theorem decWritesSrcMinusOne : Obligations.DecWritesSrcMinusOne := by
  intro s
  refine ⟨exec_mathInstr s .dec, exec_math_acc_acc s .dec, exec_math_mar_mar s .dec,
    ⟨_, exec_math_acc_mar s .dec, rfl, ?_⟩, ⟨_, exec_math_mar_acc s .dec, rfl, rfl⟩⟩
  have hone : (1 : Word).toNat = 1 := rfl
  have hzero : s.acc = 0x00 ↔ s.acc.toNat = 0 := BitVec.toNat_inj.symm
  rw [alu, BitVec.toNat_sub, toNat_widenByte_zero, hone]
  split
  case isTrue h =>
    have h0 := hzero.mp h
    omega
  case isFalse h =>
    have h0 : s.acc.toNat ≠ 0 := fun h' => h (hzero.mpr h')
    have hlt : s.acc.toNat < 256 := s.acc.isLt
    omega

/-- Settles O42: the complement at the width of the dst; that of a zero-extended byte has a high byte of 0xFF. -/
theorem notWritesTheComplementOfSrc : Obligations.NotWritesTheComplementOfSrc := by
  intro s
  have haccMar := exec_math_acc_mar s .not
  rw [alu, not_widen] at haccMar
  refine ⟨exec_mathInstr s .not, exec_math_acc_acc s .not, exec_math_mar_mar s .not, haccMar,
    exec_math_mar_acc s .not, ⟨_, exec_math_indirect_memory s .not, ?_⟩⟩
  rw [readByte_writeWord_high, alu, not_widen, highByte_joinBytes]

end Sys2Proof.Machine

namespace Sys2Proof.Machine

/-! ### The alternative `refuse` of ADDR_WRAP (spec/10_state.md R27, spec/20_memory.md R49) -/

section
variable (s : State)

/-- A cycle always has a next state. -/
theorem cycle_next : ∃ t, cycle s = .next t := by
  cases hdec : decodeOpcode s.opcode with
  | illegal b => exact ⟨_, cycle_illegal hdec⟩
  | ok i =>
    rw [cycle_ok hdec]
    exact exec_next (fetchOpcode s) i

theorem cycleUnder_refuse_of_crossing (h : crossesTop s = true) :
    cycleUnder .refuse s = .refused .addressPastTop := by
  rw [cycleUnder_refuse, if_pos h]

theorem cycleUnder_refuse_of_not_crossing (h : ¬ crossesTop s = true) : cycleUnder .refuse s = cycle s := by
  rw [cycleUnder_refuse, if_neg h]

theorem cycleUnder_refuse_refused_iff :
    cycleUnder .refuse s = .refused .addressPastTop ↔ crossesTop s = true := by
  refine ⟨fun h => not_not.mp fun hnot => ?_, cycleUnder_refuse_of_crossing s⟩
  obtain ⟨t, ht⟩ := cycle_next s
  rw [cycleUnder_refuse_of_not_crossing s hnot, ht] at h
  cases h

theorem bytesConsumed_pos (b : Byte) : 0 < bytesConsumed b := by
  cases hdec : decodeOpcode b with
  | ok i =>
    rw [bytesConsumed_ok hdec, instrLength]
    omega
  | illegal b' =>
    rw [bytesConsumed_illegal hdec]
    exact Nat.one_pos

/-! The addresses of the 16-bit accesses by variant. -/

theorem wordAccesses_mathInstr (f : MathFunc) (src dst : Target) :
    wordAccesses (mathInstr f src dst) s = mathWordAccesses src dst s := by
  cases f <;> rfl

theorem wordAccesses_storeInstr_mar (m : Method) :
    wordAccesses (storeInstr .mar m) s = [(storeAddress m s).1] := by
  cases m <;> rfl

theorem mem_mathWordAccesses_src (dst : Target) : readWord s.mem s.pc ∈ mathWordAccesses .memory dst s :=
  List.mem_append_left _ (List.mem_singleton_self _)

theorem mem_mathWordAccesses_dst (src : Target) :
    readWord s.mem (s.pc + BitVec.ofNat 16 (targetBytes src)) ∈ mathWordAccesses src .memory s := by
  have haddr : targetWordAccess .memory (resolve config src s).state =
      [readWord s.mem (s.pc + BitVec.ofNat 16 (targetBytes src))] := by
    rw [resolve_state]
    rfl
  refine List.mem_append_right _ ?_
  rw [haddr]
  exact List.mem_singleton_self _

/-- A word that an instruction writes is one of its 16-bit accesses. -/
theorem mem_wordAccesses_of_writtenPlace {i : Instr} {a : Word} (h : writtenPlace i s = some (.wordAt a)) :
    a ∈ wordAccesses i s := by
  obtain ⟨f, src, dst, rfl⟩ | ⟨r, m, rfl⟩ | ⟨r, m, rfl⟩ | ⟨k, rfl⟩ | rfl | rfl := instr_variants i
  · rw [writtenPlace_mathInstr, Option.some.injEq] at h
    rw [wordAccesses_mathInstr]
    cases dst with
    | indirect => rw [mathPlace_indirect] at h; cases h
    | acc => cases h
    | mar => cases h
    | memory =>
      rw [mathPlace_memory] at h
      cases h
      exact mem_mathWordAccesses_dst s src
  · rw [writtenPlace_loadInstr] at h
    cases r <;> cases h
  · rw [writtenPlace_storeInstr] at h
    cases r with
    | acc => cases h
    | mar =>
      cases h
      rw [wordAccesses_storeInstr_mar]
      exact List.mem_singleton_self _
  · rw [writtenPlace_branchInstr] at h
    cases h
  · cases h
  · cases h

end

/-- Settles O25: `refuse` refuses exactly the cycles that cross the top, and every word an instruction reads or writes
is among its 16-bit accesses, none of which is at 0xFFFF where there is a step. -/
theorem refuseSettingNeverWraps : Obligations.RefuseSettingNeverWraps := by
  intro s hrun
  have hcross := (cycleUnder_refuse_refused_iff s).trans (crossesTop_iff s)
  refine ⟨?_, hcross, fun htop => ?_, fun t hnext => ?_⟩
  · by_cases h : crossesTop s = true
    · exact .inl (cycleUnder_refuse_of_crossing s h)
    · exact .inr ((cycleUnder_refuse_of_not_crossing s h).trans (step_running hrun).symm)
  · have hpos : 0 < bytesConsumed (readByte s.mem s.pc) := bytesConsumed_pos _
    have htop' : s.pc.toNat = 65535 := congrArg BitVec.toNat htop
    exact hcross.mpr (.inl (by omega))
  · have hnot : ¬ cycleUnder .refuse s = .refused .addressPastTop := by rw [hnext]; nofun
    rw [hcross, not_or] at hnot
    obtain ⟨hfetch, haccess⟩ := hnot
    refine ⟨not_lt.mp hfetch, fun i hdec => ?_⟩
    have hne (a : Word) (ha : a ∈ wordAccesses i (fetchOpcode s)) : a ≠ 0xFFFF :=
      fun h => haccess ⟨i, hdec, h ▸ ha⟩
    refine ⟨hne, fun p a hp hword => ?_, ?_, ?_, fun f dst => ?_, fun f src => ?_⟩
    · subst hword
      exact hne a (mem_wordAccesses_of_writtenPlace _ hp)
    · rintro rfl
      exact hne _ (List.mem_singleton_self _)
    · rintro rfl
      exact hne _ (List.mem_singleton_self _)
    · rintro rfl
      rw [wordAccesses_mathInstr] at hne
      exact hne _ (mem_mathWordAccesses_src (fetchOpcode s) dst)
    · rintro rfl
      rw [wordAccesses_mathInstr] at hne
      rw [← ofNat_targetBytes]
      exact hne _ (mem_mathWordAccesses_dst (fetchOpcode s) src)

end Sys2Proof.Machine
